-- ==== Sys2Proof/Word.lean ====
section
/-! DEFINITION. The machine's word types (00_scope.md R9). Registers are bit vectors of the width R21 gives them;
a mathematical integer of the spec's pseudocode is an Int or a Nat. -/

namespace Sys2Proof

/-- A byte: an integer in [0, 255] (R9). -/
abbrev Byte := BitVec 8

/-- A command word (R70). -/
abbrev CmdWord := BitVec 16

/-- A value register: VALUE, FVAL[i], RESULT (R34). -/
abbrev ValueWord := BitVec 64

end Sys2Proof
end

