-- ==== Sys2Proof/Syntax.lean ====
section
/-! DEFINITION. The commands (one constructor per row of spec/opcode_table.json) and the host's accesses. -/

namespace Sys2Proof

/-- Descriptor bit ORD (R75). -/
inductive ByteOrder where
  | le
  | be
deriving DecidableEq, Repr

/-- Descriptor bit SGN (R75). -/
inductive Signedness where
  | unsigned
  | signed
deriving DecidableEq, Repr

/-- The integer widths, exactly {1, 2, 3, 4, 6} bytes (R8, R76). -/
inductive Width where
  | w1
  | w2
  | w3
  | w4
  | w6
deriving DecidableEq, Repr

/-- The meaning of a valid field descriptor (R75, R77): an integer field, or the speed+direction field with its
direction bit. -/
inductive FieldForm where
  | int (w : Width) (ord : ByteOrder) (sgn : Signedness)
  | spd (dir : Bool)
deriving DecidableEq, Repr

/-- The commands. A command word carries no operand but its descriptor (R79), so ORD and SGN of an integer row and
DIR of the speed+direction row are all the fields there are; the width is the row's own. -/
inductive Instr where
  | packInt1 (ord : ByteOrder) (sgn : Signedness)
  | packInt2 (ord : ByteOrder) (sgn : Signedness)
  | packInt3 (ord : ByteOrder) (sgn : Signedness)
  | packInt4 (ord : ByteOrder) (sgn : Signedness)
  | packInt6 (ord : ByteOrder) (sgn : Signedness)
  | packSpd (dir : Bool)
  | unpackInt1 (ord : ByteOrder) (sgn : Signedness)
  | unpackInt2 (ord : ByteOrder) (sgn : Signedness)
  | unpackInt3 (ord : ByteOrder) (sgn : Signedness)
  | unpackInt4 (ord : ByteOrder) (sgn : Signedness)
  | unpackInt6 (ord : ByteOrder) (sgn : Signedness)
  | sbenc
  | sbdec
  | cksum
  | build
  | parse
deriving DecidableEq, Repr

/-- The PACK row of an integer width. -/
def Instr.packInt (w : Width) (ord : ByteOrder) (sgn : Signedness) : Instr :=
  match w with
  | .w1 => .packInt1 ord sgn
  | .w2 => .packInt2 ord sgn
  | .w3 => .packInt3 ord sgn
  | .w4 => .packInt4 ord sgn
  | .w6 => .packInt6 ord sgn

/-- The UNPACK row of an integer width. -/
def Instr.unpackInt (w : Width) (ord : ByteOrder) (sgn : Signedness) : Instr :=
  match w with
  | .w1 => .unpackInt1 ord sgn
  | .w2 => .unpackInt2 ord sgn
  | .w3 => .unpackInt3 ord sgn
  | .w4 => .unpackInt4 ord sgn
  | .w6 => .unpackInt6 ord sgn

/-- The PACK row of a field of either kind (R73). -/
def Instr.packField : FieldForm → Instr
  | .int w ord sgn => .packInt w ord sgn
  | .spd dir => .packSpd dir

/-- The registers of R21. -/
inductive Reg where
  | ctrl
  | status
  | cmd
  | addr
  | opc
  | nf
  | offset
  | expw
  | ilen
  | olen
  | value
  | result
  | fdesc (i : Nat)
  | fval (i : Nat)
deriving DecidableEq, Repr

/-- The two byte buffers (R37, R38). -/
inductive Buffer where
  | ibuf
  | obuf
deriving DecidableEq, Repr

/-- What a host access names: a register by its 8-bit number, or one byte of a buffer by its 16-bit index (R50). -/
inductive Target where
  | reg (n : BitVec 8)
  | byte (b : Buffer) (k : BitVec 16)
deriving DecidableEq, Repr

/-- How the host names it: in the block's own spaces, or by a host address that HOST_MAP places (R62). -/
inductive Loc where
  | direct (t : Target)
  | mapped (a : Nat)
deriving DecidableEq, Repr

/-- One thing the host does to the block: a write (WR, WRB), a read (RD, RDB), WAIT (R84), or a pulse of the reset
input (R190, R192). A written value is any natural number; the register keeps its low bits (R22). -/
inductive HostOp where
  | write (l : Loc) (v : Nat)
  | read (l : Loc)
  | wait
  | reset
deriving DecidableEq, Repr

end Sys2Proof
end

