-- ==== Sys2Proof/Config.lean ====
section
/-! DEFINITION. The parameters of R7 that no step changes, and the free values: constants without a body, of which
nothing can be proved but that they are what they are. (NF_MAX is the length of the descriptor table in State, and
LATENCY is State's list of waits.) -/

namespace Sys2Proof

/-- The block's fixed parameters (R7). `hostMap` lists which host address reaches which target (R62); the first
entry of an address counts. `speedRespOrd` is the host's ORD choice for a motor-speed response field (R154): no
command reads it. -/
structure Params where
  bufBytes : Nat
  hostMap : List (Nat × Target)
  speedRespOrd : ByteOrder
deriving DecidableEq, Repr

/-- The default of R7 for BUF_BYTES. HOST_MAP and SPEED_RESP_ORD are OPEN: an empty map and big-endian stand here
(DESIGN CHOICE, logs 4 and 5; unsafe for a claim that rests on them, and none does). -/
def Params.default : Params := ⟨256, [], .be⟩

/-- What a host address reaches, if HOST_MAP places the block there (R62). -/
def Params.target (p : Params) (a : Nat) : Option Target :=
  (p.hostMap.find? (fun e => e.1 == a)).map (·.2)

/-- FREE VALUE (93 U6, U7, U11; log 6): the byte a buffer index holds that nothing has stored to since the `n`-th
reset. It depends on the reset, the buffer and the index, so repeated reads agree until a byte is stored. -/
opaque Config.unwrittenByte (n : Nat) (b : Buffer) (k : Nat) : Byte

/-- FREE VALUE (93 U9; log 7): the ERR field that the `n`-th host read returns if it reads STATUS while BUSY = 1. -/
opaque Config.busyErr (n : Nat) : BitVec 4

end Sys2Proof
end

