-- ==== Sys2Proof/WellFormed.lean ====
section
/-! DEFINITION. What the parameters must satisfy (R7). A term of `Instr` needs no check: its operands are exact
enumerations (R75, R76), so every term is an instruction the encoding has. The checks of a descriptor BYTE (R77),
which a register may hold whatever its bits, are `fdIntOk`, `fdSpdOk` and `fdOk` of Sys2Proof/Decode.lean. -/

namespace Sys2Proof

/-- BUF_BYTES is in 16 to 65535 (R7). -/
def Params.wellFormed (p : Params) : Bool := decide (16 ≤ p.bufBytes ∧ p.bufBytes ≤ 65535)

/-- NF_MAX is in 3 to 16 (R7). -/
def nfMaxWellFormed (nfMax : Nat) : Bool := decide (3 ≤ nfMax ∧ nfMax ≤ 16)

end Sys2Proof
end

