-- ==== Sys2Proof/Decode.lean ====
section
/-! DEFINITION. The command decoder (30_encoding.md R70 to R82), the encoder, and the assembler syntax of R83. -/

namespace Sys2Proof

/-- Why a word is ILLEGAL (the five grounds of R80). The block records only the code ILLEGAL (R164). -/
inductive IllegalWord where
  /-- RSV is not 0 (R72). -/
  | reservedBits
  /-- OP is 0x0 or 0x8 to 0xF (R71). -/
  | reservedOp
  /-- FD is not 0 for SBENC, SBDEC, CKSUM, BUILD or PARSE (R73). -/
  | descriptorNotZero
  /-- FD of a PACK is not a valid descriptor (R73, R77). -/
  | badPackDescriptor
  /-- FD of an UNPACK is not a valid integer descriptor (R73, R77). -/
  | badUnpackDescriptor
deriving DecidableEq, Repr

/-- OP, cw[3:0] (R70). -/
def cwOp (w : CmdWord) : BitVec 4 := w.extractLsb' 0 4

/-- RSV, cw[7:4] (R70). -/
def cwRsv (w : CmdWord) : BitVec 4 := w.extractLsb' 4 4

/-- FD, cw[15:8] (R70). -/
def cwFd (w : CmdWord) : Byte := w.extractLsb' 8 8

/-- WCODE, fd[2:0] (R75). -/
def fdWcode (fd : Byte) : BitVec 3 := fd.extractLsb' 0 3

/-- ORD, fd[3] (R75). -/
def fdOrder (fd : Byte) : ByteOrder := if fd.getLsbD 3 then .be else .le

/-- SGN, fd[4] (R75). -/
def fdSign (fd : Byte) : Signedness := if fd.getLsbD 4 then .signed else .unsigned

/-- `width(wcode)` (R76): none for the reserved codes 5, 6 and 7. -/
def width (wcode : BitVec 3) : Option Width :=
  match wcode.toNat with
  | 0 => some .w1
  | 1 => some .w2
  | 2 => some .w3
  | 3 => some .w4
  | 4 => some .w6
  | _ => none

/-- The width in bytes (R76). -/
def Width.bytes : Width → Nat
  | .w1 => 1
  | .w2 => 2
  | .w3 => 3
  | .w4 => 4
  | .w6 => 6

/-- `fd_int_ok` (R77). -/
def fdIntOk (fd : Byte) : Bool :=
  !fd.getLsbD 7 && !fd.getLsbD 6 && !fd.getLsbD 5 && decide ((fdWcode fd).toNat ≤ 4)

/-- `fd_spd_ok` (R77). -/
def fdSpdOk (fd : Byte) : Bool :=
  !fd.getLsbD 7 && fd.getLsbD 5 && decide (fd.extractLsb' 0 5 = 0#5)

/-- `fd_ok` (R77). -/
def fdOk (fd : Byte) : Bool := fdIntOk fd || fdSpdOk fd

/-- The field a descriptor describes (R75, R77); none where it is neither kind. -/
def fieldOf (fd : Byte) : Option FieldForm :=
  if fdIntOk fd then (width (fdWcode fd)).map (fun w => .int w (fdOrder fd) (fdSign fd))
  else if fdSpdOk fd then some (.spd (fd.getLsbD 6))
  else none

/-- `flen` (R78). -/
def FieldForm.len : FieldForm → Nat
  | .int w _ _ => w.bytes
  | .spd _ => 2

/-- The PACK arm of the decoder (R74). -/
def decodePack (fd : Byte) : Except IllegalWord Instr :=
  match fieldOf fd with
  | some f => .ok (.packField f)
  | none => .error .badPackDescriptor

/-- The UNPACK arm of the decoder (R74): integer descriptors only. -/
def decodeUnpack (fd : Byte) : Except IllegalWord Instr :=
  match fieldOf fd with
  | some (.int w ord sgn) => .ok (.unpackInt w ord sgn)
  | some (.spd _) => .error .badUnpackDescriptor
  | none => .error .badUnpackDescriptor

/-- The arms of the commands that take no descriptor (R73, R74). -/
def decodePlain (fd : Byte) (i : Instr) : Except IllegalWord Instr :=
  if fd = 0 then .ok i else .error .descriptorNotZero

/-- The decoder, total on all words (R74). -/
def decode (w : CmdWord) : Except IllegalWord Instr :=
  if cwRsv w ≠ 0 then .error .reservedBits
  else
    match (cwOp w).toNat with
    | 1 => decodePack (cwFd w)
    | 2 => decodeUnpack (cwFd w)
    | 3 => decodePlain (cwFd w) .sbenc
    | 4 => decodePlain (cwFd w) .sbdec
    | 5 => decodePlain (cwFd w) .cksum
    | 6 => decodePlain (cwFd w) .build
    | 7 => decodePlain (cwFd w) .parse
    | _ => .error .reservedOp

/-- The instruction the decoder reads from an opcode-table word: one 16-bit word, whose bits above `nbits` are 0. -/
def decodeTableWord (nbits w : Nat) : Option Instr :=
  match decode (BitVec.ofNat 16 (w % 2 ^ nbits)) with
  | .ok i => some i
  | .error _ => none

/-- WCODE(w) (R76, R83). -/
def wcodeOf : Width → Byte
  | .w1 => 0
  | .w2 => 1
  | .w3 => 2
  | .w4 => 3
  | .w6 => 4

/-- The ORD bit (R83): `le` is 0 and `be` is 1. -/
def ordBit : ByteOrder → Byte
  | .le => 0
  | .be => 1

/-- The SGN bit (R83): `u` is 0 and `s` is 1. -/
def sgnBit : Signedness → Byte
  | .unsigned => 0
  | .signed => 1

/-- The descriptor byte of a field (R83): (SGN << 4) | (ORD << 3) | WCODE, or 0x20 and 0x60. -/
def fdOf : FieldForm → Byte
  | .int w ord sgn => (sgnBit sgn <<< 4) ||| (ordBit ord <<< 3) ||| wcodeOf w
  | .spd false => 0x20
  | .spd true => 0x60

/-- A command word from its descriptor and its OP (R83). -/
def wordOf (fd : Byte) (op : CmdWord) : CmdWord := (fd.zeroExtend 16 <<< 8) ||| op

/-- The encoder (R83). -/
def encode : Instr → CmdWord
  | .packInt1 ord sgn => wordOf (fdOf (.int .w1 ord sgn)) 0x1
  | .packInt2 ord sgn => wordOf (fdOf (.int .w2 ord sgn)) 0x1
  | .packInt3 ord sgn => wordOf (fdOf (.int .w3 ord sgn)) 0x1
  | .packInt4 ord sgn => wordOf (fdOf (.int .w4 ord sgn)) 0x1
  | .packInt6 ord sgn => wordOf (fdOf (.int .w6 ord sgn)) 0x1
  | .packSpd dir => wordOf (fdOf (.spd dir)) 0x1
  | .unpackInt1 ord sgn => wordOf (fdOf (.int .w1 ord sgn)) 0x2
  | .unpackInt2 ord sgn => wordOf (fdOf (.int .w2 ord sgn)) 0x2
  | .unpackInt3 ord sgn => wordOf (fdOf (.int .w3 ord sgn)) 0x2
  | .unpackInt4 ord sgn => wordOf (fdOf (.int .w4 ord sgn)) 0x2
  | .unpackInt6 ord sgn => wordOf (fdOf (.int .w6 ord sgn)) 0x2
  | .sbenc => 0x0003
  | .sbdec => 0x0004
  | .cksum => 0x0005
  | .build => 0x0006
  | .parse => 0x0007

/-- A descriptor in the syntax of R83, such as `int3.be.s` or `spd.d0`. -/
def FieldForm.asm : FieldForm → String
  | .int w ord sgn =>
      "int" ++ toString w.bytes ++ (match ord with | .le => ".le" | .be => ".be")
        ++ (match sgn with | .unsigned => ".u" | .signed => ".s")
  | .spd false => "spd.d0"
  | .spd true => "spd.d1"

/-- A command in the syntax of R83. -/
def Instr.asm : Instr → String
  | .packInt1 ord sgn => "PACK " ++ (FieldForm.int .w1 ord sgn).asm
  | .packInt2 ord sgn => "PACK " ++ (FieldForm.int .w2 ord sgn).asm
  | .packInt3 ord sgn => "PACK " ++ (FieldForm.int .w3 ord sgn).asm
  | .packInt4 ord sgn => "PACK " ++ (FieldForm.int .w4 ord sgn).asm
  | .packInt6 ord sgn => "PACK " ++ (FieldForm.int .w6 ord sgn).asm
  | .packSpd dir => "PACK " ++ (FieldForm.spd dir).asm
  | .unpackInt1 ord sgn => "UNPACK " ++ (FieldForm.int .w1 ord sgn).asm
  | .unpackInt2 ord sgn => "UNPACK " ++ (FieldForm.int .w2 ord sgn).asm
  | .unpackInt3 ord sgn => "UNPACK " ++ (FieldForm.int .w3 ord sgn).asm
  | .unpackInt4 ord sgn => "UNPACK " ++ (FieldForm.int .w4 ord sgn).asm
  | .unpackInt6 ord sgn => "UNPACK " ++ (FieldForm.int .w6 ord sgn).asm
  | .sbenc => "SBENC"
  | .sbdec => "SBDEC"
  | .cksum => "CKSUM"
  | .build => "BUILD"
  | .parse => "PARSE"

end Sys2Proof
end

