-- ==== Sys2Proof/Machine/State.lean ====
section
/-! DEFINITION. The state of the block and of the host's side of its port (10_state.md R20, R21), as plain data. -/

namespace Sys2Proof.Machine

/-- The errors a command can raise (R13, R160). OK is the absence of one. Codes 6 to 15 do not exist (93 U23). -/
inductive Err where
  | range
  | malformed
  | checksum
  | illegal
  | capacity
deriving DecidableEq, Repr

/-- A descriptor slot: FDESC[i] and FVAL[i] (R33). -/
structure FieldSlot where
  desc : Byte
  val : ValueWord
deriving DecidableEq, Repr

/-- A buffer's stored bytes by index, in one canonical form (`Memory.wf`). An unlisted index holds no stored byte:
what it reads as is a free value (`State.byteAt`, log 6). -/
abbrev Memory := List Host.Cell

/-- The canonical form: indices strictly rising. (An unlisted index holds nothing, so no entry can equal what it
holds.) -/
abbrev Memory.wf (m : Memory) : Prop := m.Pairwise (fun x y => x.1 < y.1)

/-- The state. The registers are those of R21; the last six fields are the model's own (INVENTORY.md, State). -/
structure State where
  params : Params
  /-- CTRL (R27). -/
  ctrl : BitVec 8
  /-- STATUS.ERR (R25, R26): the last completed command's error, none for OK. -/
  err : Option Err
  /-- STATUS.BUSY (R25, R39). -/
  busy : Bool
  /-- The in-flight command latch, which a write to CMD fills (R32, R39). -/
  cw : CmdWord
  addr : BitVec 8
  opc : BitVec 8
  nf : BitVec 8
  offset : BitVec 16
  expw : BitVec 16
  ilen : BitVec 16
  olen : BitVec 16
  value : ValueWord
  result : ValueWord
  /-- FDESC and FVAL (R33): NF_MAX slots. -/
  slots : List FieldSlot
  ibuf : Memory
  obuf : Memory
  /-- Host turns left before the in-flight command completes (R194; log 3). -/
  wait : Nat
  /-- LATENCY (R7, R194): one entry for each command still to be issued, 0 beyond the end (log 3). -/
  latency : List Nat
  /-- The host's accesses still to come (log 9). -/
  host : List HostOp
  /-- The value the host's last read returned (log 8). -/
  rdata : BitVec 64
  /-- Resets so far: the index of `Config.unwrittenByte` (log 6). -/
  resets : Nat
  /-- Host reads so far: the index of `Config.busyErr` (log 7). -/
  reads : Nat
deriving DecidableEq, Repr

/-- NF_MAX (R7). -/
def State.nfMax (s : State) : Nat := s.slots.length

/-- There is no fault: no error is fatal to the block (R161), no command hangs (R194), and every index and register
number has a defined access (R22, R51). -/
inductive Fault
deriving DecidableEq, Repr

/-- Why the model has no step. -/
inductive Refusal where
  /-- Raised by an arm of `exec` whose instruction has no meaning yet (none now). Safe. -/
  | notModelled (mnemonic : String)
  /-- Raised by a host turn that makes any access but a read of STATUS while BUSY = 1 (R195, R197, 93 U10). Safe. -/
  | busyHazard
deriving DecidableEq, Repr

/-- The state right after the reset of R190 with the given parameters, with nothing asked of the block yet. -/
def State.init (params : Params) (nfMax : Nat) (latency : List Nat) : State where
  params := params
  ctrl := 0x04
  err := none
  busy := false
  cw := 0
  addr := 0
  opc := 0
  nf := 0
  offset := 0
  expw := 0
  ilen := 0
  olen := 0
  value := 0
  result := 0
  slots := List.replicate nfMax ⟨0, 0⟩
  ibuf := []
  obuf := []
  wait := 0
  latency := latency
  host := []
  rdata := 0
  resets := 0
  reads := 0

/-- The machine right after reset with the default parameters of R7. -/
def State.reset : State := State.init Params.default 8 []

end Sys2Proof.Machine
end

