-- ==== Sys2Proof/Machine/Flags.lean ====
section
/-! DEFINITION. The status word and the option bits. The block has no arithmetic flags (R40): STATUS.ERR and
STATUS.BUSY are its only status bits (R25), and CTRL holds its three options (R27). -/

namespace Sys2Proof.Machine

/-- The codes of R160. -/
def errCode : Option Err → BitVec 4
  | none => 0
  | some .range => 1
  | some .malformed => 2
  | some .checksum => 3
  | some .illegal => 4
  | some .capacity => 5

/-- STATUS (R25): bits 7:5 read 0, bit 4 is BUSY, bits 3:0 are ERR. -/
def statusWord (busy : Bool) (err : BitVec 4) : BitVec 8 := 0#3 ++ BitVec.ofBool busy ++ err

/-- What a host read of STATUS returns: while BUSY = 1 the ERR field is a free value (R197, 93 U9; log 7). -/
def State.status (s : State) : BitVec 8 :=
  if s.busy then statusWord true (Config.busyErr s.reads) else statusWord false (errCode s.err)

/-- CTRL.STRICT (R27, R28). -/
def State.strict (s : State) : Bool := s.ctrl.getLsbD 0

/-- CTRL.HICHK (R27, R29). -/
def State.hichk (s : State) : Bool := s.ctrl.getLsbD 1

/-- CTRL.ADDRPFX (R27, R30). -/
def State.addrPfx (s : State) : Bool := s.ctrl.getLsbD 2

/-- The implemented bits of CTRL: bits 7:3 read 0 and are not written (R31). -/
def ctrlMask (v : BitVec 8) : BitVec 8 := v &&& 0x07

end Sys2Proof.Machine
end

