-- ==== Sys2Proof/Machine/Ops.lean ====
section
/-! DEFINITION. The named operations over buffers and registers, and the ends of a command: success (R41) and the
error abort (R162), which is all the exception mechanism the block has (R167, R168). -/

namespace Sys2Proof.Machine

/-- The byte stored at an index, if one has been stored. -/
def memGet : Memory → Nat → Option Byte
  | [], _ => none
  | (a, b) :: rest, k => if a = k then some b else memGet rest k

/-- Stores one byte, keeping indices strictly rising. -/
def memSet : Memory → Nat → Byte → Memory
  | [], k, b => [(k, b)]
  | (a, x) :: rest, k, b =>
    if k < a then (k, b) :: (a, x) :: rest
    else if k = a then (k, b) :: rest
    else (a, x) :: memSet rest k b

/-- `MemWrite` (R12): stores a byte list from index `i` on. -/
def memWrite (m : Memory) (i : Nat) : List Byte → Memory
  | [] => m
  | b :: bs => memWrite (memSet m i b) (i + 1) bs

/-- The stored bytes of a buffer. -/
def State.memory (s : State) : Buffer → Memory
  | .ibuf => s.ibuf
  | .obuf => s.obuf

/-- The byte at an index of a buffer (R51): the byte last stored there, or the free value of an index nothing has
stored to since reset (93 U6, U7). -/
def State.byteAt (s : State) (b : Buffer) (k : Nat) : Byte :=
  (memGet (s.memory b) k).getD (Config.unwrittenByte s.resets b k)

/-- `MemRead` (R12): `n` bytes of a buffer from index `i` on. Commands read IBUF only (R52). -/
def State.memRead (s : State) (b : Buffer) (i n : Nat) : List Byte :=
  (List.range n).map (fun j => s.byteAt b (i + j))

/-- What a command that raises nothing delivers: its bytes for OBUF (none for UNPACK and CKSUM) and its RESULT.
OLEN is the number of bytes in every row of R41. -/
structure Output where
  bytes : List Byte
  result : ValueWord
deriving DecidableEq, Repr

/-- Completion without error (R41, R193): the outputs, then BUSY <- 0. -/
def State.succeed (s : State) (o : Output) : State :=
  { s with
    obuf := memWrite s.obuf 0 o.bytes
    olen := BitVec.ofNat 16 o.bytes.length
    result := o.result
    err := none
    busy := false }

/-- The error abort (R162): ERR <- code, OLEN <- 0, RESULT <- 0, BUSY <- 0, and no other state changes. -/
def State.errorAbort (s : State) (e : Err) : State :=
  { s with err := some e, olen := 0, result := 0, busy := false }

/-- Completion of a command whose checks and computation gave `r` (R13, R193). -/
def State.finish (s : State) : Except Err Output → State
  | .ok o => s.succeed o
  | .error e => s.errorAbort e

/-- Issue of a command word (R32, R39, R193): the latch is filled and BUSY <- 1. The next LATENCY entry says how
many host turns pass before the completion (R194). -/
def State.issue (s : State) (w : CmdWord) : State :=
  { s with cw := w, busy := true, wait := s.latency.headD 0, latency := s.latency.tail }

/-- The register at a number, none for a reserved number (R21). -/
def regAt (nfMax : Nat) (n : BitVec 8) : Option Reg :=
  match n.toNat with
  | 0x00 => some .ctrl
  | 0x01 => some .status
  | 0x02 => some .cmd
  | 0x03 => some .addr
  | 0x04 => some .opc
  | 0x05 => some .nf
  | 0x06 => some .offset
  | 0x07 => some .expw
  | 0x08 => some .ilen
  | 0x09 => some .olen
  | 0x0A => some .value
  | 0x0B => some .result
  | m =>
    if 0x10 ≤ m ∧ m < 0x20 ∧ m - 0x10 < nfMax then some (.fdesc (m - 0x10))
    else if 0x20 ≤ m ∧ m < 0x30 ∧ m - 0x20 < nfMax then some (.fval (m - 0x20))
    else none

/-- A host read of a register, widened with zeros to the widest register (R22). CMD reads 0; bits 7:3 of CTRL read
0 (R31). -/
def State.readReg (s : State) : Reg → BitVec 64
  | .ctrl => (ctrlMask s.ctrl).zeroExtend 64
  | .status => s.status.zeroExtend 64
  | .cmd => 0
  | .addr => s.addr.zeroExtend 64
  | .opc => s.opc.zeroExtend 64
  | .nf => s.nf.zeroExtend 64
  | .offset => s.offset.zeroExtend 64
  | .expw => s.expw.zeroExtend 64
  | .ilen => s.ilen.zeroExtend 64
  | .olen => s.olen.zeroExtend 64
  | .value => s.value
  | .result => s.result
  | .fdesc i => match s.slots[i]? with
    | some slot => slot.desc.zeroExtend 64
    | none => 0
  | .fval i => match s.slots[i]? with
    | some slot => slot.val
    | none => 0

/-- A host write of value `v` to a register (R22): a W-bit RW register keeps v mod 2^W, an RO register ignores the
write, bits 7:3 of CTRL are not written (R31), and a write to CMD issues the command (R32). -/
def State.writeReg (s : State) (r : Reg) (v : Nat) : State :=
  match r with
  | .ctrl => { s with ctrl := ctrlMask (BitVec.ofNat 8 v) }
  | .status => s
  | .cmd => s.issue (BitVec.ofNat 16 v)
  | .addr => { s with addr := BitVec.ofNat 8 v }
  | .opc => { s with opc := BitVec.ofNat 8 v }
  | .nf => { s with nf := BitVec.ofNat 8 v }
  | .offset => { s with offset := BitVec.ofNat 16 v }
  | .expw => { s with expw := BitVec.ofNat 16 v }
  | .ilen => { s with ilen := BitVec.ofNat 16 v }
  | .olen => s
  | .value => { s with value := BitVec.ofNat 64 v }
  | .result => s
  | .fdesc i => { s with slots := s.slots.modify i (fun slot => { slot with desc := BitVec.ofNat 8 v }) }
  | .fval i => { s with slots := s.slots.modify i (fun slot => { slot with val := BitVec.ofNat 64 v }) }

end Sys2Proof.Machine
end

