-- ==== Sys2Proof/Machine/Operands.lean ====
section
/-! DEFINITION. The operands a command reads (R79), and the codec functions of R15 over integers and byte lists. -/

namespace Sys2Proof.Machine

/-- `sval64` (R10, R34). -/
def sval64 (x : ValueWord) : Int := x.toInt

/-- A field of a frame to be built: what its descriptor says, and the integer in its FVAL (R16, R140). -/
abbrev PackedField := FieldForm × Int

/-- The fields of the given slots in order (R140); none if a descriptor is invalid (R77). -/
def packedFields : List FieldSlot → Option (List PackedField)
  | [] => some []
  | slot :: rest =>
    match fieldOf slot.desc, packedFields rest with
    | some f, some fs => some ((f, sval64 slot.val) :: fs)
    | _, _ => none

/-- `in_range` (R92). -/
def inRange (V : Int) (w : Width) : Signedness → Bool
  | .unsigned => decide (0 ≤ V ∧ V < 2 ^ (8 * w.bytes))
  | .signed => decide (-2 ^ (8 * w.bytes - 1) ≤ V ∧ V < 2 ^ (8 * w.bytes - 1))

/-- The bytes of a natural number, least significant first: byte i is (U >> 8i) & 0xFF (R90). -/
def leBytes (U n : Nat) : List Byte := (List.range n).map (fun i => BitVec.ofNat 8 ((U >>> (8 * i)) &&& 0xFF))

/-- Bytes between least-significant-first order and a field's own order (R53, R90, R91). -/
def inOrder (ord : ByteOrder) (bs : List Byte) : List Byte :=
  match ord with
  | .le => bs
  | .be => bs.reverse

/-- `int_pack` (R90). -/
def intPack (V : Int) (w : Width) (ord : ByteOrder) (sgn : Signedness) (strict : Bool) : Except Err (List Byte) :=
  if strict && !inRange V w sgn then .error .range
  else .ok (inOrder ord (leBytes (V % 2 ^ (8 * w.bytes)).toNat w.bytes))

/-- The number a byte list holds, least significant byte first: the sum of le[i] << 8i (R91). -/
def leNat : List Byte → Nat
  | [] => 0
  | b :: bs => b.toNat + 256 * leNat bs

/-- `int_unpack` (R91). -/
def intUnpack (bs : List Byte) (w : Width) (ord : ByteOrder) (sgn : Signedness) : Int :=
  let U := leNat (inOrder ord bs)
  match sgn with
  | .unsigned => U
  | .signed => if 2 ^ (8 * w.bytes - 1) ≤ U then (U : Int) - 2 ^ (8 * w.bytes) else U

/-- `spdir_pack` (R131, R55). -/
def spdirPack (S : Int) (d : Bool) (strict : Bool) : Except Err (List Byte) :=
  if strict && !decide (0 ≤ S ∧ S ≤ 4095) then .error .range
  else
    let U := (S % 4096).toNat
    .ok [BitVec.ofNat 8 ((U >>> 8) ||| (d.toNat <<< 7)), BitVec.ofNat 8 (U &&& 0xFF)]

/-- `field_bytes` (R132). -/
def fieldBytes (f : FieldForm) (V : Int) (strict : Bool) : Except Err (List Byte) :=
  match f with
  | .int w ord sgn => intPack V w ord sgn strict
  | .spd d => spdirPack V d strict

/-- The bytes of several fields in order (R140, R142). -/
def fieldsBytes (strict : Bool) : List PackedField → Except Err (List Byte)
  | [] => .ok []
  | (f, V) :: rest =>
    match fieldBytes f V strict, fieldsBytes strict rest with
    | .ok bs, .ok more => .ok (bs ++ more)
    | .error e, _ => .error e
    | .ok _, .error e => .error e

/-- The number of bytes of several fields (R78, R140). -/
def fieldsLen (fs : List PackedField) : Nat := (fs.map (fun p => p.1.len)).sum

/-- `checksum` (R130): a byte sum, the carry discarded. -/
def checksum (seed : Byte) (bs : List Byte) : Byte := bs.foldl (· + ·) seed

/-- `sb_encode` (R110, R56). -/
def sbEncode (xs : List Byte) : List Byte :=
  xs.flatMap (fun p => [p &&& 0x7F#8, (p &&& 0x80#8) >>> (7 : Nat)])

/-- The (lo, hi) pairs of an even-length list (R111). -/
def bytePairs : List Byte → List (Byte × Byte)
  | lo :: hi :: rest => (lo, hi) :: bytePairs rest
  | _ => []

/-- `sb_decode` (R111): lo is not masked (R117). -/
def sbDecode (ys : List Byte) (hichk : Bool) : Except Err (List Byte) :=
  if ys.length % 2 = 1 then .error .malformed
  else if hichk && (bytePairs ys).any (fun p => decide (1 < p.2.toNat)) then .error .malformed
  else .ok ((bytePairs ys).map (fun p => p.1 ||| ((p.2 &&& 0x01#8) <<< (7 : Nat))))

end Sys2Proof.Machine
end

