-- ==== Sys2Proof/Machine/Frame.lean ====
section
/-! DEFINITION. CKSUM, BUILD and PARSE (42_bus_frame_codec.md R135, R140, R150). -/

namespace Sys2Proof.Machine

/-- CKSUM (R135). -/
def cksumOutput (s : State) : Except Err Output :=
  if s.params.bufBytes < s.ilen.toNat then .error .capacity
  else .ok ⟨[], (checksum s.addr (s.memRead .ibuf 0 s.ilen.toNat)).zeroExtend 64⟩

/-- The slots a BUILD checks: i < min(NF, NF_MAX) (R140; 90_conflicts.md C9). -/
def State.usedSlots (s : State) : List FieldSlot := s.slots.take s.nf.toNat

/-- The length L of the frame of these fields (R140). -/
def State.frameLen (s : State) (fs : List PackedField) : Nat := s.addrPfx.toNat + 1 + fieldsLen fs + 1

/-- The bytes a BUILD emits for a body (R140, R30, R57): the body and its checksum, with ADDR ahead when
ADDRPFX = 1. -/
def State.frameOf (s : State) (body : List Byte) : List Byte :=
  (if s.addrPfx then [s.addr] else []) ++ body ++ [checksum s.addr body]

/-- BUILD (R140): descriptors, then capacity, then the fields' ranges (R163). -/
def buildOutput (s : State) : Except Err Output :=
  match packedFields s.usedSlots with
  | none => .error .illegal
  | some fs =>
    if s.nfMax < s.nf.toNat then .error .capacity
    else if s.params.bufBytes < s.frameLen fs then .error .capacity
    else
      match fieldsBytes s.strict fs with
      | .error e => .error e
      | .ok bs => .ok ⟨s.frameOf (s.opc :: bs), (checksum s.addr (s.opc :: bs)).zeroExtend 64⟩

/-- PARSE (R150): the length is checked before the checksum (R151). With n = 2 + EXPW the frame fr has its echo at
fr[0], its field bytes in fr[1..n-1) and its checksum at fr[n-1]. -/
def parseOutput (s : State) : Except Err Output :=
  if s.params.bufBytes < s.ilen.toNat then .error .capacity
  else if s.ilen.toNat ≠ 2 + s.expw.toNat then .error .malformed
  else if checksum s.addr (s.memRead .ibuf 0 (s.ilen.toNat - 1)) ≠ s.byteAt .ibuf (s.ilen.toNat - 1) then
    .error .checksum
  else .ok ⟨s.memRead .ibuf 1 s.expw.toNat, (s.byteAt .ibuf 0).zeroExtend 64⟩

def execCksum (s : State) : Host.Outcome State Fault Refusal := .next (s.finish (cksumOutput s))

def execBuild (s : State) : Host.Outcome State Fault Refusal := .next (s.finish (buildOutput s))

def execParse (s : State) : Host.Outcome State Fault Refusal := .next (s.finish (parseOutput s))

end Sys2Proof.Machine
end

