-- ==== Sys2Proof/Machine/Integer.lean ====
section
/-! DEFINITION. PACK and UNPACK (40_integer_codec.md R93, R97). -/

namespace Sys2Proof.Machine

/-- PACK (R93): VALUE as one field. -/
def packOutput (f : FieldForm) (s : State) : Except Err Output :=
  match fieldBytes f (sval64 s.value) s.strict with
  | .ok bs => .ok ⟨bs, 0⟩
  | .error e => .error e

/-- UNPACK (R97, R98): one integer field of IBUF at OFFSET. -/
def unpackOutput (w : Width) (ord : ByteOrder) (sgn : Signedness) (s : State) : Except Err Output :=
  if s.params.bufBytes < s.ilen.toNat then .error .capacity
  else if s.ilen.toNat < s.offset.toNat + w.bytes then .error .range
  else .ok ⟨[], BitVec.ofInt 64 (intUnpack (s.memRead .ibuf s.offset.toNat w.bytes) w ord sgn)⟩

def execPackInt1 (ord : ByteOrder) (sgn : Signedness) (s : State) : Host.Outcome State Fault Refusal :=
  .next (s.finish (packOutput (.int .w1 ord sgn) s))

def execPackInt2 (ord : ByteOrder) (sgn : Signedness) (s : State) : Host.Outcome State Fault Refusal :=
  .next (s.finish (packOutput (.int .w2 ord sgn) s))

def execPackInt3 (ord : ByteOrder) (sgn : Signedness) (s : State) : Host.Outcome State Fault Refusal :=
  .next (s.finish (packOutput (.int .w3 ord sgn) s))

def execPackInt4 (ord : ByteOrder) (sgn : Signedness) (s : State) : Host.Outcome State Fault Refusal :=
  .next (s.finish (packOutput (.int .w4 ord sgn) s))

def execPackInt6 (ord : ByteOrder) (sgn : Signedness) (s : State) : Host.Outcome State Fault Refusal :=
  .next (s.finish (packOutput (.int .w6 ord sgn) s))

/-- PACK of the speed+direction field: VALUE is the speed, the descriptor's DIR the direction bit (R93, R131). -/
def execPackSpd (dir : Bool) (s : State) : Host.Outcome State Fault Refusal :=
  .next (s.finish (packOutput (.spd dir) s))

def execUnpackInt1 (ord : ByteOrder) (sgn : Signedness) (s : State) : Host.Outcome State Fault Refusal :=
  .next (s.finish (unpackOutput .w1 ord sgn s))

def execUnpackInt2 (ord : ByteOrder) (sgn : Signedness) (s : State) : Host.Outcome State Fault Refusal :=
  .next (s.finish (unpackOutput .w2 ord sgn s))

def execUnpackInt3 (ord : ByteOrder) (sgn : Signedness) (s : State) : Host.Outcome State Fault Refusal :=
  .next (s.finish (unpackOutput .w3 ord sgn s))

def execUnpackInt4 (ord : ByteOrder) (sgn : Signedness) (s : State) : Host.Outcome State Fault Refusal :=
  .next (s.finish (unpackOutput .w4 ord sgn s))

def execUnpackInt6 (ord : ByteOrder) (sgn : Signedness) (s : State) : Host.Outcome State Fault Refusal :=
  .next (s.finish (unpackOutput .w6 ord sgn s))

end Sys2Proof.Machine
end

