-- ==== Sys2Proof/Machine/SevenBit.lean ====
section
/-! DEFINITION. SBENC and SBDEC (41_sevenbit_codec.md R113, R116). -/

namespace Sys2Proof.Machine

/-- SBENC (R113). -/
def sbencOutput (s : State) : Except Err Output :=
  if s.params.bufBytes < s.ilen.toNat then .error .capacity
  else if s.params.bufBytes < 2 * s.ilen.toNat then .error .capacity
  else .ok ⟨sbEncode (s.memRead .ibuf 0 s.ilen.toNat), 0⟩

/-- SBDEC (R116). -/
def sbdecOutput (s : State) : Except Err Output :=
  if s.params.bufBytes < s.ilen.toNat then .error .capacity
  else
    match sbDecode (s.memRead .ibuf 0 s.ilen.toNat) s.hichk with
    | .ok bs => .ok ⟨bs, 0⟩
    | .error e => .error e

def execSbenc (s : State) : Host.Outcome State Fault Refusal := .next (s.finish (sbencOutput s))

def execSbdec (s : State) : Host.Outcome State Fault Refusal := .next (s.finish (sbdecOutput s))

end Sys2Proof.Machine
end

