-- ==== Sys2Proof/Machine/Dispatch.lean ====
section
/-! DEFINITION. The meaning of each instruction: the completion of its command. -/

namespace Sys2Proof.Machine

def exec (i : Instr) (s : State) : Host.Outcome State Fault Refusal :=
  match i with
  | .packInt1 ord sgn => Sys2Proof.Machine.execPackInt1 ord sgn s
  | .packInt2 ord sgn => Sys2Proof.Machine.execPackInt2 ord sgn s
  | .packInt3 ord sgn => Sys2Proof.Machine.execPackInt3 ord sgn s
  | .packInt4 ord sgn => Sys2Proof.Machine.execPackInt4 ord sgn s
  | .packInt6 ord sgn => Sys2Proof.Machine.execPackInt6 ord sgn s
  | .packSpd dir => Sys2Proof.Machine.execPackSpd dir s
  | .unpackInt1 ord sgn => Sys2Proof.Machine.execUnpackInt1 ord sgn s
  | .unpackInt2 ord sgn => Sys2Proof.Machine.execUnpackInt2 ord sgn s
  | .unpackInt3 ord sgn => Sys2Proof.Machine.execUnpackInt3 ord sgn s
  | .unpackInt4 ord sgn => Sys2Proof.Machine.execUnpackInt4 ord sgn s
  | .unpackInt6 ord sgn => Sys2Proof.Machine.execUnpackInt6 ord sgn s
  | .sbenc => Sys2Proof.Machine.execSbenc s
  | .sbdec => Sys2Proof.Machine.execSbdec s
  | .cksum => Sys2Proof.Machine.execCksum s
  | .build => Sys2Proof.Machine.execBuild s
  | .parse => Sys2Proof.Machine.execParse s

end Sys2Proof.Machine
end

