-- ==== Sys2Proof/Machine/Engine.lean ====
section
/-! DEFINITION. The command engine's step (R193). -/

namespace Sys2Proof.Machine

/-- `complete()` (R193): the latched word decodes to a command, which runs, or the command ends in the error abort
ILLEGAL. The host has changed nothing since the issue (R197), so this state's operands are those at the issue. -/
def engineStep (s : State) : Host.Outcome State Fault Refusal :=
  match decode s.cw with
  | .ok i => exec i s
  | .error _ => .next (s.errorAbort .illegal)

end Sys2Proof.Machine
end

