-- ==== Sys2Proof/Machine/HostPort.lean ====
section
/-! DEFINITION. The host's side: its accesses (R22, R51, R62), the busy hazard (R197), the reset input (R190, R192),
and the host's own syntax and naming (R84, R85, R134, R154). -/

namespace Sys2Proof.Machine

/-- The block's target of a location: itself, or what HOST_MAP places at the address (R62). -/
def State.locate (s : State) : Loc → Option Target
  | .direct t => some t
  | .mapped a => s.params.target a

/-- A host write (R22, R51): to a reserved number, to OBUF, or at an index at or above BUF_BYTES it is ignored. -/
def State.hostWrite (s : State) (t : Target) (v : Nat) : State :=
  match t with
  | .reg n =>
    match regAt s.nfMax n with
    | some r => s.writeReg r v
    | none => s
  | .byte .ibuf k =>
    if k.toNat < s.params.bufBytes then { s with ibuf := memSet s.ibuf k.toNat (BitVec.ofNat 8 v) } else s
  | .byte .obuf _ => s

/-- The value a host read returns (R22, R51): 0 for a reserved number and at an index at or above BUF_BYTES. -/
def State.hostRead (s : State) (t : Target) : BitVec 64 :=
  match t with
  | .reg n =>
    match regAt s.nfMax n with
    | some r => s.readReg r
    | none => 0
  | .byte b k => if k.toNat < s.params.bufBytes then (s.byteAt b k.toNat).zeroExtend 64 else 0

/-- The host takes the value of a read. Nothing of the block changes (R61). -/
def State.noteRead (s : State) (v : BitVec 64) : State := { s with rdata := v, reads := s.reads + 1 }

/-- The one target that may be read while BUSY = 1: register 0x01, STATUS (R197). -/
def statusTarget : Target := .reg 0x01

/-- A pulse of the reset input (R190, R192): the registers, the table and the latch take their reset values, an
in-flight command is abandoned, and the buffers hold unspecified bytes. The parameters and the host's side stay. -/
def State.blockReset (s : State) : State :=
  { State.init s.params s.nfMax s.latency with
    host := s.host
    rdata := s.rdata
    resets := s.resets + 1
    reads := s.reads }

/-- The host's list replaced: the accesses that remain. -/
def State.setHost (s : State) (rest : List HostOp) : State := { s with host := rest }

/-- One host access, already taken off the list (R84). An address HOST_MAP does not place is no access to the
block. While BUSY = 1 all but a read of STATUS is refused (R195, R197); WAIT reads STATUS again until BUSY = 0. -/
def hostTurn (op : HostOp) (s : State) : Host.Outcome State Fault Refusal :=
  match op with
  | .write l v =>
    match s.locate l with
    | none => .next s
    | some t => if s.busy then .refused .busyHazard else .next (s.hostWrite t v)
  | .read l =>
    match s.locate l with
    | none => .next s
    | some t =>
      if s.busy = true ∧ t ≠ statusTarget then .refused .busyHazard else .next (s.noteRead (s.hostRead t))
  | .wait =>
    let s' := s.noteRead (s.hostRead statusTarget)
    if s.busy then .next (s'.setHost (.wait :: s'.host)) else .next s'
  | .reset => .next s.blockReset

/-- One host turn of the in-flight command's latency passes (R194). -/
def State.elapse (s : State) : State := { s with wait := s.wait - 1 }

/-- The number of a register (R21). -/
def regNumber : Reg → BitVec 8
  | .ctrl => 0x00
  | .status => 0x01
  | .cmd => 0x02
  | .addr => 0x03
  | .opc => 0x04
  | .nf => 0x05
  | .offset => 0x06
  | .expw => 0x07
  | .ilen => 0x08
  | .olen => 0x09
  | .value => 0x0A
  | .result => 0x0B
  | .fdesc i => BitVec.ofNat 8 (0x10 + i)
  | .fval i => BitVec.ofNat 8 (0x20 + i)

/-- `WR reg, v` (R84). -/
def hostWr (r : Reg) (v : Nat) : HostOp := .write (.direct (.reg (regNumber r))) v

/-- `RD reg` (R84). -/
def hostRd (r : Reg) : HostOp := .read (.direct (.reg (regNumber r)))

/-- `WRB IBUF[k], b` (R84). -/
def hostWrb (k : BitVec 16) (b : Byte) : HostOp := .write (.direct (.byte .ibuf k)) b.toNat

/-- `RDB OBUF[k]` (R84). -/
def hostRdb (k : BitVec 16) : HostOp := .read (.direct (.byte .obuf k))

/-- `RUN` (R84): WR CMD, word; WAIT. -/
def hostRun (i : Instr) : List HostOp := [hostWr .cmd (encode i).toNat, .wait]

/-- The WRBs of a LOAD from index `k` on (R84). -/
def hostStores (k : Nat) : List Byte → List HostOp
  | [] => []
  | b :: bs => hostWrb (BitVec.ofNat 16 k) b :: hostStores (k + 1) bs

/-- `LOAD IBUF, bytes` (R84): the WRBs, then WR ILEN. -/
def hostLoad (bs : List Byte) : List HostOp := hostStores 0 bs ++ [hostWr .ilen bs.length]

/-- The host's list with more accesses at its end: how a host program reaches the machine (log 9). -/
def State.withHost (s : State) (ops : List HostOp) : State := { s with host := s.host ++ ops }

/-- The rotation senses of the source's scenarios (R134). The block knows only the bit. -/
inductive RotationSense where
  | cw
  | ccw
deriving DecidableEq, Repr

/-- The DIR bit of a rotation sense (R134, R85): CW is 0 and CCW is 1. -/
def dirOf : RotationSense → Bool
  | .cw => false
  | .ccw => true

/-- The speed+direction descriptor of a rotation sense (R85). -/
def speedField (r : RotationSense) : FieldForm := .spd (dirOf r)

/-- The acceleration field of the scenarios (R85; 91_not_in_source.md N14). -/
def accelerationField : FieldForm := .int .w1 .le .unsigned

/-- The relative step count of the scenarios (R85). -/
def relativeStepsField : FieldForm := .int .w3 .be .unsigned

/-- The absolute position of the scenarios (R85). -/
def absolutePositionField : FieldForm := .int .w3 .be .signed

/-- A motor-speed response field, in the byte order SPEED_RESP_ORD (R154). -/
def speedResponseField (p : Params) (w : Width) (sgn : Signedness) : FieldForm := .int w p.speedRespOrd sgn

/-- The UNPACK command that reads a motor-speed response field (R152, R154). -/
def unpackSpeedResponse (p : Params) (w : Width) (sgn : Signedness) : Instr := .unpackInt w p.speedRespOrd sgn

end Sys2Proof.Machine
end

