-- ==== Sys2Proof/Machine/Turns.lean ====
section
/-! DEFINITION. Whose turn it is (R19). -/

namespace Sys2Proof.Machine

/-- One turn of the two agents. While BUSY = 1 the engine completes the command once its latency has run out, and
until then each host turn takes one off it (R193, R194; log 15). Otherwise the host makes its next access, and with
none left the block idles (R191, R176). -/
def takeTurn (s : State) : Host.Outcome State Fault Refusal :=
  if s.busy then
    if s.wait = 0 then engineStep s
    else
      match s.host with
      | [] => .next s.elapse
      | op :: rest => hostTurn op (s.elapse.setHost rest)
  else
    match s.host with
    | [] => .next s
    | op :: rest => hostTurn op (s.setHost rest)

end Sys2Proof.Machine
end

