-- ==== Sys2Proof/Machine/Step.lean ====
section
/-! DEFINITION. One step of the machine, and the placing of a command word. -/

namespace Sys2Proof.Machine

/-- One step: one turn of the two agents (R19). -/
def step (s : State) : Host.Outcome State Fault Refusal := takeTurn s

/-- The state in which the given opcode-table word has been issued and its latency has run out, so that the next
step completes it (R193; log 20). -/
def State.withFetchWord (s : State) (nbits w : Nat) : State :=
  { s with cw := BitVec.ofNat 16 (w % 2 ^ nbits), busy := true, wait := 0 }

end Sys2Proof.Machine
end

