-- ==== Sys2Proof/Safety.lean ====
section
/-! DEFINITION. The invariant of the block, the runs that count, and the terms in which statements are made: how a
command ends, and what R79 names as its operands. -/

namespace Sys2Proof.Machine

/-- A buffer holds bytes in canonical form and only at indices below BUF_BYTES (R37, R38, R50). -/
structure Memory.Inside (m : Memory) (bufBytes : Nat) : Prop where
  canonical : Memory.wf m
  bounded : ∀ k, bufBytes ≤ k → memGet m k = none

/-- What every step keeps. -/
structure State.Inv (s : State) : Prop where
  /-- BUF_BYTES and NF_MAX are in range (R7). -/
  params_ok : s.params.wellFormed = true
  nfMax_ok : nfMaxWellFormed s.nfMax = true
  /-- CTRL bits 7:3 stay 0 (R31). -/
  ctrl_reserved : s.ctrl.extractLsb' 3 5 = 0#5
  ibuf_ok : s.ibuf.Inside s.params.bufBytes
  obuf_ok : s.obuf.Inside s.params.bufBytes
  /-- The valid output bytes fit OBUF (R36, R52) and have all been stored: none of them is a free value. -/
  olen_fits : s.olen.toNat ≤ s.params.bufBytes
  output_stored : ∀ k, k < s.olen.toNat → (memGet s.obuf k).isSome = true
  /-- A nonzero STATUS.ERR goes with OLEN = 0 and RESULT = 0 (R162, R165). -/
  error_clears : s.err ≠ none → s.olen = 0 ∧ s.result = 0

/-- The host keeps R197 at this state: if it acts while BUSY = 1, it reads STATUS, waits, resets the block, or makes
no access to the block at all. -/
def State.HostKeepsBusyRule (s : State) : Prop :=
  s.busy = true → 0 < s.wait →
    match s.host with
    | .write l _ :: _ => s.locate l = none
    | .read l :: _ => s.locate l = none ∨ s.locate l = some statusTarget
    | _ => True

/-- A state is safe to step from when its step is neither a fault nor a refusal. -/
def State.StepsOn (s : State) : Prop := ∃ t, step s = .next t

/-- The operation is one of a host that polls: WAIT, or a read of STATUS, direct or through HOST_MAP (R62, R84,
R197). -/
def State.Polls (s : State) (op : HostOp) : Prop :=
  op = .wait ∨ ∃ l, op = .read l ∧ s.locate l = some statusTarget

/-- Everything but a command's outputs OBUF, OLEN, RESULT, STATUS.ERR and STATUS.BUSY is as it was (R41, R162). -/
def State.SameButOutputs (s t : State) : Prop :=
  t = { s with obuf := t.obuf, olen := t.olen, result := t.result, err := t.err, busy := t.busy }

/-- From `s` a command completed without error in `t` (R41): it stored these bytes from OBUF[0] on, OLEN is their
number, RESULT is as given, ERR is OK, BUSY is 0, every other OBUF byte reads as before, and nothing else changed. -/
structure State.CompletesWith (s t : State) (bytes : List Byte) (result : ValueWord) : Prop where
  frame : s.SameButOutputs t
  err : t.err = none
  busy : t.busy = false
  olen : t.olen.toNat = bytes.length
  result : t.result = result
  output : ∀ k (h : k < bytes.length), t.byteAt .obuf k = bytes[k]
  rest : ∀ k, bytes.length ≤ k → t.byteAt .obuf k = s.byteAt .obuf k

/-- The state after the error abort of R162, written out. -/
def State.aborted (s : State) (e : Err) : State := { s with err := some e, olen := 0, result := 0, busy := false }

/-- Two states give a command the same IBUF operand: the capacity, ILEN, and the bytes IBUF[0..ILEN) (R79, R7). -/
def State.SameInput (s t : State) : Prop :=
  s.params.bufBytes = t.params.bufBytes ∧ s.ilen = t.ilen ∧
    ∀ k, k < s.ilen.toNat → s.byteAt .ibuf k = t.byteAt .ibuf k

/-- Two states agree on the operands that R79 lists for a command, and on the parameters its checks use (R7). -/
def SameOperands (i : Instr) (s t : State) : Prop :=
  match i with
  | .packInt1 _ _ | .packInt2 _ _ | .packInt3 _ _ | .packInt4 _ _ | .packInt6 _ _ | .packSpd _ =>
      s.value = t.value ∧ s.strict = t.strict
  | .unpackInt1 _ _ | .unpackInt2 _ _ | .unpackInt3 _ _ | .unpackInt4 _ _ | .unpackInt6 _ _ =>
      s.offset = t.offset ∧ s.SameInput t
  | .sbenc => s.SameInput t
  | .sbdec => s.hichk = t.hichk ∧ s.SameInput t
  | .cksum => s.addr = t.addr ∧ s.SameInput t
  | .build =>
      s.addr = t.addr ∧ s.opc = t.opc ∧ s.nf = t.nf ∧ s.usedSlots = t.usedSlots ∧ s.strict = t.strict ∧
        s.addrPfx = t.addrPfx ∧ s.params.bufBytes = t.params.bufBytes ∧ s.nfMax = t.nfMax
  | .parse => s.addr = t.addr ∧ s.expw = t.expw ∧ s.SameInput t

/-- An integer is in the range of a field of that many bits (R92). -/
def InRange (V : Int) (bits : Nat) : Signedness → Prop
  | .unsigned => 0 ≤ V ∧ V < 2 ^ bits
  | .signed => -2 ^ (bits - 1) ≤ V ∧ V < 2 ^ (bits - 1)

/-- Where byte `j` of a field, counted from the least significant, stands in the field's own order (R53). -/
def bytePlace (w : Width) (ord : ByteOrder) (j : Nat) : Nat :=
  match ord with
  | .le => j
  | .be => w.bytes - 1 - j

/-- The bytes of the low 8n bits of a value register in a byte order (R53, R95). -/
def registerBytes (v : ValueWord) (n : Nat) (big : Bool) : List Byte :=
  let le := (List.range n).map (fun j => v.extractLsb' (8 * j) 8)
  if big then le.reverse else le

/-- The two bytes of the speed+direction field, bit by bit (R55): DIR, three zeros and speed[11:8], then
speed[7:0]. -/
def speedBytes (v : ValueWord) (dir : Bool) : List Byte :=
  [BitVec.ofBool dir ++ 0#3 ++ v.extractLsb' 8 4, v.extractLsb' 0 8]

/-- The byte width that WCODE names (R76). -/
def wcodeBytes (fd : Byte) : Nat := [1, 2, 3, 4, 6, 0, 0, 0].getD (fd.extractLsb' 0 3).toNat 0

/-- The bytes of a table slot in truncate mode, read off the descriptor's bits (R75, R95, R131). -/
def slotBytes (slot : FieldSlot) : List Byte :=
  if slot.desc.getLsbD 5 then speedBytes slot.val (slot.desc.getLsbD 6)
  else registerBytes slot.val (wcodeBytes slot.desc) (slot.desc.getLsbD 3)

/-- The value of a table slot is in its field's strict-mode range (R92, R131). -/
def SlotInRange (slot : FieldSlot) : Prop :=
  if slot.desc.getLsbD 5 then 0 ≤ slot.val.toInt ∧ slot.val.toInt ≤ 4095
  else InRange slot.val.toInt (8 * wcodeBytes slot.desc) (fdSign slot.desc)

/-- `flen` of a slot whose descriptor is valid, read off its bits (R78). -/
def slotLen (slot : FieldSlot) : Nat := if slot.desc.getLsbD 5 then 2 else wcodeBytes slot.desc

/-- The integer sum of a byte list (R11). -/
def byteSum (bs : List Byte) : Nat := (bs.map BitVec.toNat).sum

/-- The order in which a command reports its errors (R163), as a rank. -/
def errRank : Err → Nat
  | .illegal => 1
  | .capacity => 2
  | .malformed => 3
  | .range => 4
  | .checksum => 5

/-- The frame a BUILD would emit is longer than OBUF (R140, R160). -/
def State.FrameTooLong (s : State) : Prop :=
  s.params.bufBytes < s.addrPfx.toNat + 1 + ((s.slots.take s.nf.toNat).map slotLen).sum + 1

/-- The causes of R160, command by command: the error applies to the command at this
state, whatever else applies. The word itself decodes; a word that does not is ILLEGAL (R74). -/
def ErrorApplies (i : Instr) (s : State) (e : Err) : Prop :=
  match i with
  | .packInt1 _ sgn => e = .range ∧ s.strict = true ∧ ¬ InRange s.value.toInt 8 sgn
  | .packInt2 _ sgn => e = .range ∧ s.strict = true ∧ ¬ InRange s.value.toInt 16 sgn
  | .packInt3 _ sgn => e = .range ∧ s.strict = true ∧ ¬ InRange s.value.toInt 24 sgn
  | .packInt4 _ sgn => e = .range ∧ s.strict = true ∧ ¬ InRange s.value.toInt 32 sgn
  | .packInt6 _ sgn => e = .range ∧ s.strict = true ∧ ¬ InRange s.value.toInt 48 sgn
  | .packSpd _ => e = .range ∧ s.strict = true ∧ ¬ (0 ≤ s.value.toInt ∧ s.value.toInt ≤ 4095)
  | .unpackInt1 _ _ => UnpackError 1 s e
  | .unpackInt2 _ _ => UnpackError 2 s e
  | .unpackInt3 _ _ => UnpackError 3 s e
  | .unpackInt4 _ _ => UnpackError 4 s e
  | .unpackInt6 _ _ => UnpackError 6 s e
  | .sbenc => e = .capacity ∧ (s.params.bufBytes < s.ilen.toNat ∨ s.params.bufBytes < 2 * s.ilen.toNat)
  | .sbdec =>
      (e = .capacity ∧ s.params.bufBytes < s.ilen.toNat) ∨
      (e = .malformed ∧ (s.ilen.toNat % 2 = 1 ∨
        (s.hichk = true ∧ ∃ j, 2 * j + 1 < s.ilen.toNat ∧ 1 < (s.byteAt .ibuf (2 * j + 1)).toNat)))
  | .cksum => e = .capacity ∧ s.params.bufBytes < s.ilen.toNat
  | .build =>
      (e = .illegal ∧ ∃ slot ∈ s.slots.take s.nf.toNat, fdOk slot.desc = false) ∨
      (e = .capacity ∧ (s.nfMax < s.nf.toNat ∨ s.FrameTooLong)) ∨
      (e = .range ∧ s.strict = true ∧ ∃ slot ∈ s.slots.take s.nf.toNat, ¬ SlotInRange slot)
  | .parse =>
      (e = .capacity ∧ s.params.bufBytes < s.ilen.toNat) ∨
      (e = .malformed ∧ s.ilen.toNat ≠ 2 + s.expw.toNat) ∨
      (e = .checksum ∧
        (s.addr.toNat + byteSum (s.memRead .ibuf 0 (s.ilen.toNat - 1))) % 256 ≠
          (s.byteAt .ibuf (s.ilen.toNat - 1)).toNat)
where
  /-- The causes for an UNPACK of a field of `n` bytes (R97, R98). -/
  UnpackError (n : Nat) (s : State) (e : Err) : Prop :=
    (e = .capacity ∧ s.params.bufBytes < s.ilen.toNat) ∨ (e = .range ∧ s.ilen.toNat < s.offset.toNat + n)

/-- The host's rights to a register (R21). -/
inductive Access where
  | rw
  | ro
  | wo
deriving DecidableEq, Repr

/-- The host access column of R21. -/
def regAccess : Reg → Access
  | .status | .olen | .result => .ro
  | .cmd => .wo
  | .ctrl | .addr | .opc | .nf | .offset | .expw | .ilen | .value | .fdesc _ | .fval _ => .rw

/-- The width column of R21. -/
def regWidth : Reg → Nat
  | .ctrl | .status | .addr | .opc | .nf | .fdesc _ => 8
  | .cmd | .offset | .expw | .ilen | .olen => 16
  | .value | .result | .fval _ => 64

/-- The register exists at this NF_MAX (R21). -/
def regExists (nfMax : Nat) : Reg → Prop
  | .fdesc i | .fval i => i < nfMax
  | _ => True

/-- A register number R21 calls reserved. -/
def reservedNumber (nfMax : Nat) (n : BitVec 8) : Prop :=
  (0x0C ≤ n.toNat ∧ n.toNat ≤ 0x0F) ∨ (0x10 + nfMax ≤ n.toNat ∧ n.toNat ≤ 0x1F) ∨
    (0x20 + nfMax ≤ n.toNat ∧ n.toNat ≤ 0x2F) ∨ 0x30 ≤ n.toNat

end Sys2Proof.Machine
end

