-- ==== Sys2Proof/Certificates/Slice0/Obligations.lean ====
section
/-! DEFINITION. The statements for the provers. Words such as `CompletesWith`, `SameButOutputs`, `ErrorApplies` and
`SameOperands` are defined in Sys2Proof/Safety.lean. -/

open Sys2Proof Sys2Proof.Machine

/-! ### Encoding -/

/-- Words written out bit by bit from R70, R75 and R83 decode to the commands they stand for, and reserved ones do
not decode. -/
def Obligations.WrittenOutWordsDecode : Prop :=
  decode 0b0000000000000001#16 = .ok (.packInt1 .le .unsigned) ∧
  decode 0b0001101000000001#16 = .ok (.packInt3 .be .signed) ∧
  decode 0b0110000000000001#16 = .ok (.packSpd true) ∧
  decode 0b0000110000000010#16 = .ok (.unpackInt6 .be .unsigned) ∧
  decode 0b0000000000000011#16 = .ok .sbenc ∧
  decode 0b0000000000000100#16 = .ok .sbdec ∧
  decode 0b0000000000000101#16 = .ok .cksum ∧
  decode 0b0000000000000110#16 = .ok .build ∧
  decode 0b0000000000000111#16 = .ok .parse ∧
  decode 0b0000000000000000#16 = .error .reservedOp ∧
  decode 0b0010000000000010#16 = .error .badUnpackDescriptor

/-- Decoding the encoding of any command gives it back, with every operand at every value. -/
def Obligations.DecodeOfEncode : Prop := ∀ i : Instr, decode (encode i) = .ok i

/-- No two words decode to one command: encoding what a word decodes to gives the word back. -/
def Obligations.EncodeOfDecode : Prop := ∀ (w : CmdWord) (i : Instr), decode w = .ok i → encode i = w

/-- R72: reserved bits make a word ILLEGAL, whatever its OP; its completion is the abort ILLEGAL. -/
def Obligations.ReservedBitsAreIllegal : Prop :=
  ∀ s : State, s.cw.extractLsb' 4 4 ≠ 0#4 → s.busy = true → s.wait = 0 →
    step s = .next (s.aborted .illegal)

/-- The legal words, by their bits (R74, R77, R80): RSV is 0, and OP is PACK with an integer or a speed+direction
descriptor, UNPACK with an integer descriptor, or another command with FD = 0. -/
def Obligations.LegalWordsByTheirBits : Prop :=
  ∀ w : CmdWord,
    let op := (w.extractLsb' 0 4).toNat
    let fd := (w.extractLsb' 8 8).toNat
    (∃ i, decode w = .ok i) ↔
      w.extractLsb' 4 4 = 0#4 ∧
        ((op = 1 ∧ ((fd < 0x20 ∧ fd % 8 ≤ 4) ∨ fd = 0x20 ∨ fd = 0x60)) ∨
         (op = 2 ∧ fd < 0x20 ∧ fd % 8 ≤ 4) ∨
         (3 ≤ op ∧ op ≤ 7 ∧ fd = 0))

/-! ### Registers, buffers and the host's port -/

/-- The register map (R21): a number is a register's own, or it is reserved. -/
def Obligations.RegisterMap : Prop :=
  ∀ (nfMax : Nat) (n : BitVec 8), nfMax ≤ 16 →
    (∀ r, regAt nfMax n = some r ↔ regExists nfMax r ∧ regNumber r = n) ∧
    (regAt nfMax n = none ↔ reservedNumber nfMax n)

/-- A host write to a register other than CMD (R22): an RW register keeps v mod 2^W (CTRL its low three bits), an RO
register nothing; every other register and every buffer byte reads as before, and no field of State changes but the
host's list and the written register's own. -/
def Obligations.HostRegisterWrite : Prop :=
  ∀ (s : State) (r : Reg) (v : Nat) (rest : List HostOp),
    s.busy = false → s.nfMax ≤ 16 → regExists s.nfMax r → r ≠ .cmd → s.host = hostWr r v :: rest →
    ∃ t, step s = .next t ∧
      (regAccess r = .rw → t.readReg r = BitVec.ofNat 64 (if r = .ctrl then v % 8 else v % 2 ^ regWidth r)) ∧
      (regAccess r = .ro → t = { s with host := rest }) ∧
      (∀ r', r' ≠ r → t.readReg r' = s.readReg r') ∧
      (r ≠ .ctrl → t.ctrl = s.ctrl) ∧
      (∀ b k, t.byteAt b k = s.byteAt b k) ∧ t.nfMax = s.nfMax ∧
      t = { s with
        host := rest
        ctrl := t.ctrl
        addr := t.addr
        opc := t.opc
        nf := t.nf
        offset := t.offset
        expw := t.expw
        ilen := t.ilen
        value := t.value
        slots := t.slots }

/-- A host read of a register (R22, R25, R31, R61): what it returns, register by register, and that it changes
nothing of the block. -/
def Obligations.HostRegisterRead : Prop :=
  ∀ (s : State) (r : Reg) (rest : List HostOp),
    s.busy = false → s.nfMax ≤ 16 → regExists s.nfMax r → s.host = hostRd r :: rest →
    ∃ v : BitVec 64, step s = .next { s with host := rest, rdata := v, reads := s.reads + 1 } ∧
      (r = .ctrl → v.toNat = s.ctrl.toNat % 8) ∧
      (r = .status → v.toNat = (errCode s.err).toNat) ∧
      (r = .cmd → v = 0) ∧
      (r = .addr → v.toNat = s.addr.toNat) ∧
      (r = .opc → v.toNat = s.opc.toNat) ∧
      (r = .nf → v.toNat = s.nf.toNat) ∧
      (r = .offset → v.toNat = s.offset.toNat) ∧
      (r = .expw → v.toNat = s.expw.toNat) ∧
      (r = .ilen → v.toNat = s.ilen.toNat) ∧
      (r = .olen → v.toNat = s.olen.toNat) ∧
      (r = .value → v = s.value) ∧
      (r = .result → v = s.result) ∧
      (∀ i slot, s.slots[i]? = some slot → r = .fdesc i → v.toNat = slot.desc.toNat) ∧
      (∀ i slot, s.slots[i]? = some slot → r = .fval i → v = slot.val)

/-- A reserved register number reads 0 and ignores writes (R22). -/
def Obligations.ReservedNumbersReadZero : Prop :=
  ∀ (s : State) (n : BitVec 8) (v : Nat) (rest : List HostOp),
    s.busy = false → s.nfMax ≤ 16 → reservedNumber s.nfMax n →
    (s.host = .write (.direct (.reg n)) v :: rest → step s = .next { s with host := rest }) ∧
    (s.host = .read (.direct (.reg n)) :: rest →
      step s = .next { s with host := rest, rdata := 0, reads := s.reads + 1 })

/-- R31: CTRL bits 7:3 are reserved. A host write ignores them (values that agree on the low three bits write the
same, and bits 7:3 read 0 after it), a read returns 0 there, and no command reads them. -/
def Obligations.ControlReservedBits : Prop :=
  (∀ (s : State) (v v' : Nat), v % 8 = v' % 8 → s.writeReg .ctrl v = s.writeReg .ctrl v') ∧
  (∀ s : State, (s.readReg .ctrl).toNat < 8) ∧
  (∀ (i : Instr) (s : State) (c : BitVec 8), c.extractLsb' 0 3 = s.ctrl.extractLsb' 0 3 →
    ∃ t, exec i s = .next t ∧ exec i { s with ctrl := c } = .next { t with ctrl := c })

/-- A host write to a buffer (R51): IBUF[k] keeps the byte, every other byte reads as before; at k ≥ BUF_BYTES, and
to OBUF, the write is ignored. -/
def Obligations.HostBufferWrite : Prop :=
  ∀ (s : State) (k : BitVec 16) (v : Nat) (rest : List HostOp), s.busy = false →
    (s.host = .write (.direct (.byte .ibuf k)) v :: rest → k.toNat < s.params.bufBytes →
      ∃ t, step s = .next t ∧ t = { s with host := rest, ibuf := t.ibuf } ∧
        t.byteAt .ibuf k.toNat = BitVec.ofNat 8 v ∧
        ∀ j, j ≠ k.toNat → t.byteAt .ibuf j = s.byteAt .ibuf j) ∧
    (s.host = .write (.direct (.byte .ibuf k)) v :: rest → s.params.bufBytes ≤ k.toNat →
      step s = .next { s with host := rest }) ∧
    (s.host = .write (.direct (.byte .obuf k)) v :: rest → step s = .next { s with host := rest })

/-- A host read of a buffer byte (R51): the byte at the index, or 0 at k ≥ BUF_BYTES; nothing of the block changes. -/
def Obligations.HostBufferRead : Prop :=
  ∀ (s : State) (b : Buffer) (k : BitVec 16) (rest : List HostOp),
    s.busy = false → s.host = .read (.direct (.byte b k)) :: rest →
    step s = .next { s with
      host := rest
      rdata := if k.toNat < s.params.bufBytes then (s.byteAt b k.toNat).zeroExtend 64 else 0
      reads := s.reads + 1 }

/-- An access through HOST_MAP is the access to the target the map gives (R62), whenever it is the host's turn. -/
def Obligations.MappedAccessIsTheDirectOne : Prop :=
  ∀ (s : State) (a v : Nat) (tg : Target) (rest : List HostOp),
    (s.busy = true → 0 < s.wait) → s.params.target a = some tg →
    step { s with host := .write (.mapped a) v :: rest } = step { s with host := .write (.direct tg) v :: rest } ∧
    step { s with host := .read (.mapped a) :: rest } = step { s with host := .read (.direct tg) :: rest }

/-- R32: a host write of w to CMD while BUSY = 0 latches w and makes the block busy with it; a read of CMD
returns 0. -/
def Obligations.CommandWriteIssues : Prop :=
  ∀ (s : State) (v : Nat) (rest : List HostOp), s.busy = false →
    (s.host = hostWr .cmd v :: rest →
      ∃ t, step s = .next t ∧ t.cw = BitVec.ofNat 16 v ∧ t.busy = true ∧
        t = { s with host := rest, cw := t.cw, busy := true, wait := t.wait, latency := t.latency }) ∧
    (s.host = hostRd .cmd :: rest → step s = .next { s with host := rest, rdata := 0, reads := s.reads + 1 })

/-- Only the host changes the control and operand registers, the table and IBUF (R23, R41, R52, R171): a step that
changes one of them took a host write made while BUSY = 0, or a reset, off the host's list. -/
def Obligations.OnlyTheHostWritesOperands : Prop :=
  ∀ s t : State, step s = .next t →
    (t.ctrl, t.addr, t.opc, t.nf, t.offset, t.expw, t.ilen, t.value, t.slots, t.ibuf) ≠
      (s.ctrl, s.addr, s.opc, s.nf, s.offset, s.expw, s.ilen, s.value, s.slots, s.ibuf) →
    (∃ l v rest, s.host = .write l v :: rest ∧ s.busy = false) ∨ (∃ rest, s.host = .reset :: rest)

/-! ### Reset -/

/-- A reset (R190, R192), with BUSY 0 or 1: every register takes its reset value, the table is zero and keeps its
size, BUSY is 0, and every buffer byte is the free value of a reset that has not been before. (That the cleared latch
holds 0x0000 is log 13.) -/
def Obligations.ResetSetsEveryRegister : Prop :=
  ∀ (s : State) (rest : List HostOp), (s.busy = true → 0 < s.wait) → s.host = .reset :: rest →
    ∃ t, step s = .next t ∧ t.ctrl = 0x04 ∧ t.err = none ∧ t.busy = false ∧ t.cw = 0 ∧
      t.addr = 0 ∧ t.opc = 0 ∧ t.nf = 0 ∧ t.offset = 0 ∧ t.expw = 0 ∧ t.ilen = 0 ∧ t.olen = 0 ∧
      t.value = 0 ∧ t.result = 0 ∧ t.nfMax = s.nfMax ∧ (∀ slot ∈ t.slots, slot.desc = 0 ∧ slot.val = 0) ∧
      (∀ b k, t.byteAt b k = Config.unwrittenByte (s.resets + 1) b k) ∧
      t.params = s.params ∧ t.host = rest

/-- After the reset, and whenever BUSY = 0 and the host does nothing, the block idles and loses no state (R176,
R191). -/
def Obligations.IdleBlockStays : Prop := ∀ s : State, s.busy = false → s.host = [] → step s = .next s

/-! ### Commands: what every one does -/

/-- Every command completes, with BUSY = 0, whatever the state (R161, R193, R194). -/
def Obligations.EveryCommandCompletes : Prop := ∀ (i : Instr) (s : State), ∃ t, exec i s = .next t ∧ t.busy = false

/-- The frame of every command (R38, R41, R52): only OBUF, OLEN, RESULT, ERR and BUSY change; of OBUF only bytes
below the OLEN written; after UNPACK, CKSUM and an error, no byte of OBUF. -/
def Obligations.CommandFrame : Prop :=
  ∀ (i : Instr) (s t : State), s.params.wellFormed = true → exec i s = .next t →
    s.SameButOutputs t ∧
    (∀ k, s.byteAt .ibuf k = t.byteAt .ibuf k) ∧
    (∀ k, t.olen.toNat ≤ k → t.byteAt .obuf k = s.byteAt .obuf k) ∧
    (t.err ≠ none → ∀ k, t.byteAt .obuf k = s.byteAt .obuf k) ∧
    ((∃ w ord sgn, i = .unpackInt w ord sgn) ∨ i = .cksum → ∀ k, t.byteAt .obuf k = s.byteAt .obuf k)

/-- R162: a completion that reports an error writes ERR, OLEN <- 0, RESULT <- 0 and BUSY <- 0, and no other state
changes. -/
def Obligations.ErrorAbortWritesOnlyTheReport : Prop :=
  ∀ (s t : State) (e : Err), s.busy = true → s.wait = 0 → step s = .next t → t.err = some e →
    t = { s with err := some e, olen := 0, result := 0, busy := false }

/-- R163: a command reports the first error that applies, in the order ILLEGAL, CAPACITY, MALFORMED, RANGE,
CHECKSUM, and OK when none applies; a word that does not decode reports ILLEGAL. -/
def Obligations.FirstErrorIsReported : Prop :=
  (∀ (i : Instr) (s t : State), exec i s = .next t →
    (∀ e, t.err = some e ↔ ErrorApplies i s e ∧ ∀ e', ErrorApplies i s e' → errRank e ≤ errRank e') ∧
    (t.err = none ↔ ∀ e, ¬ ErrorApplies i s e)) ∧
  (∀ (s : State) (g : IllegalWord), decode s.cw = .error g → s.busy = true → s.wait = 0 →
    ∃ t, step s = .next t ∧ t.err = some .illegal)

/-- A command's outcome depends on nothing but the operands R79 lists for it and the parameters (R20, R52): states
that agree on those give the same ERR, OLEN, RESULT and output bytes, whatever earlier commands left. -/
def Obligations.OutcomeDependsOnOperandsOnly : Prop :=
  ∀ (i : Instr) (s s' t t' : State), s.params.wellFormed = true → SameOperands i s s' →
    exec i s = .next t → exec i s' = .next t' →
    t.err = t'.err ∧ t.olen = t'.olen ∧ t.result = t'.result ∧
      ∀ k, k < t.olen.toNat → t.byteAt .obuf k = t'.byteAt .obuf k

/-! ### PACK and UNPACK -/

/-- PACK of an integer field (R93, R95, R53), for each of the five widths: in truncate mode, or in strict mode with
the value in range, it completes with the low 8w bits of VALUE in the field's byte order. -/
def Obligations.PackIntegerCompletes : Prop :=
  ∀ (s : State) (w : Width) (ord : ByteOrder) (sgn : Signedness),
    (s.strict = true → InRange s.value.toInt (8 * w.bytes) sgn) →
    ∃ t, exec (.packInt w ord sgn) s = .next t ∧
      s.CompletesWith t (registerBytes s.value w.bytes (ord = .be)) 0

/-- PACK of an integer out of range in strict mode raises RANGE (R92, R93). -/
def Obligations.StrictPackRaisesRange : Prop :=
  ∀ (s : State) (w : Width) (ord : ByteOrder) (sgn : Signedness),
    s.strict = true → ¬ InRange s.value.toInt (8 * w.bytes) sgn →
    exec (.packInt w ord sgn) s = .next (s.aborted .range)

/-- PACK of the speed+direction field (R93, R131, R55): DIR, three zeros and speed bits 11:8, then speed bits 7:0; a
speed outside [0, 4095] raises RANGE in strict mode and is cut to 12 bits in truncate mode. -/
def Obligations.PackSpeedField : Prop :=
  ∀ (s : State) (dir : Bool),
    ((s.strict = true → 0 ≤ s.value.toInt ∧ s.value.toInt ≤ 4095) →
      ∃ t, exec (.packSpd dir) s = .next t ∧ s.CompletesWith t (speedBytes s.value dir) 0) ∧
    (s.strict = true → ¬ (0 ≤ s.value.toInt ∧ s.value.toInt ≤ 4095) →
      exec (.packSpd dir) s = .next (s.aborted .range))

/-- UNPACK (R97, R53), for each of the five widths: with ILEN within the buffer and the field within ILEN it
completes; RESULT holds the field's bytes, and above them zeros, or copies of the field's top bit when signed. -/
def Obligations.UnpackIntegerCompletes : Prop :=
  ∀ (s : State) (w : Width) (ord : ByteOrder) (sgn : Signedness),
    s.ilen.toNat ≤ s.params.bufBytes → s.offset.toNat + w.bytes ≤ s.ilen.toNat →
    ∃ t, exec (.unpackInt w ord sgn) s = .next t ∧ s.CompletesWith t [] t.result ∧
      (∀ j, j < w.bytes →
        t.result.extractLsb' (8 * j) 8 = s.byteAt .ibuf (s.offset.toNat + bytePlace w ord j)) ∧
      (∀ b, 8 * w.bytes ≤ b → b < 64 →
        t.result.getLsbD b =
          (decide (sgn = .signed) &&
            (s.byteAt .ibuf (s.offset.toNat + bytePlace w ord (w.bytes - 1))).getLsbD 7))

/-- R98: a read that would pass the end of the input raises RANGE. -/
def Obligations.UnpackPastTheEnd : Prop :=
  ∀ (s : State) (w : Width) (ord : ByteOrder) (sgn : Signedness),
    s.ilen.toNat ≤ s.params.bufBytes → s.ilen.toNat < s.offset.toNat + w.bytes →
    exec (.unpackInt w ord sgn) s = .next (s.aborted .range)

/-- R92: the strict-mode range of a field is the set of integers that int_unpack returns for its width and sign, and
strict mode raises RANGE outside it and there only. -/
def Obligations.RangeIsWhatUnpackReturns : Prop :=
  ∀ (V : Int) (w : Width) (ord : ByteOrder) (sgn : Signedness),
    (InRange V (8 * w.bytes) sgn ↔ ∃ bs : List Byte, bs.length = w.bytes ∧ intUnpack bs w ord sgn = V) ∧
    (intPack V w ord sgn true = .error .range ↔ ¬ InRange V (8 * w.bytes) sgn)

/-- R94: in truncate mode SGN has no effect on a PACK; in strict mode it selects the range, and does not change the
bytes of a value in range. -/
def Obligations.SignednessOfPack : Prop :=
  (∀ (s : State) (w : Width) (ord : ByteOrder), s.strict = false →
    exec (.packInt w ord .signed) s = exec (.packInt w ord .unsigned) s) ∧
  (∀ (V : Int) (w : Width) (ord : ByteOrder) (sgn : Signedness), InRange V (8 * w.bytes) sgn →
    intPack V w ord sgn true = intPack V w ord .unsigned false ∧
    intPack V w ord sgn true = intPack V w ord .signed false) ∧
  (∀ (V : Int) (w : Width) (ord : ByteOrder) (sgn : Signedness), ¬ InRange V (8 * w.bytes) sgn →
    intPack V w ord sgn true = .error .range)

/-- R95: truncate mode packs the value reduced to the field's width, and never raises RANGE. -/
def Obligations.TruncationLaw : Prop :=
  ∀ (V : Int) (w : Width) (ord : ByteOrder) (sgn : Signedness),
    intPack V w ord sgn false = intPack (V % 2 ^ (8 * w.bytes)) w ord .unsigned true ∧
    ∃ bs, intPack V w ord sgn false = .ok bs

/-- R96: unpacking what was packed gives the value back, of the functions and on the block. -/
def Obligations.PackThenUnpack : Prop :=
  (∀ (V : Int) (w : Width) (ord : ByteOrder) (sgn : Signedness) (strict : Bool), InRange V (8 * w.bytes) sgn →
    ∃ bs, intPack V w ord sgn strict = .ok bs ∧ intUnpack bs w ord sgn = V) ∧
  (∀ (s t u : State) (w : Width) (ord : ByteOrder) (sgn : Signedness),
    InRange s.value.toInt (8 * w.bytes) sgn → exec (.packInt w ord sgn) s = .next t →
    u.offset = 0 → w.bytes ≤ u.ilen.toNat → u.ilen.toNat ≤ u.params.bufBytes →
    (∀ k, k < w.bytes → u.byteAt .ibuf k = t.byteAt .obuf k) →
    ∃ v, exec (.unpackInt w ord sgn) u = .next v ∧ v.err = none ∧ v.result = s.value)

/-- A one-byte field has one byte order (R83): ORD makes no difference to PACK and UNPACK of int1. -/
def Obligations.OneByteFieldsHaveOneOrder : Prop :=
  ∀ (s : State) (sgn : Signedness),
    exec (.packInt1 .le sgn) s = exec (.packInt1 .be sgn) s ∧
    exec (.unpackInt1 .le sgn) s = exec (.unpackInt1 .be sgn) s

/-! ### SBENC and SBDEC -/

/-- SBENC (R113, R110): when twice ILEN fits OBUF it completes with the low 7 bits and the high bit of each input
byte, in order. -/
def Obligations.SbencCompletes : Prop :=
  ∀ s : State, s.params.wellFormed = true → 2 * s.ilen.toNat ≤ s.params.bufBytes →
    ∃ t, exec .sbenc s = .next t ∧
      s.CompletesWith t
        ((List.range s.ilen.toNat).flatMap (fun j =>
          [s.byteAt .ibuf j &&& 0x7F#8, if (s.byteAt .ibuf j).getLsbD 7 then 1#8 else 0#8])) 0

/-- R112: every byte the encoder emits is at most 0x7F; those at even places are p & 0x7F, those at odd places 0
or 1; and so is every valid output byte after an SBENC. -/
def Obligations.EncodedBytesAreSevenBit : Prop :=
  (∀ (xs : List Byte) (j : Nat) (h : j < xs.length),
    (sbEncode xs)[2 * j]? = some (xs[j] &&& 0x7F#8) ∧
    ((sbEncode xs)[2 * j + 1]? = some 0#8 ∨ (sbEncode xs)[2 * j + 1]? = some 1#8)) ∧
  (∀ xs : List Byte, (sbEncode xs).length = 2 * xs.length ∧ ∀ y ∈ sbEncode xs, y.toNat ≤ 0x7F) ∧
  (∀ (s t : State), s.params.wellFormed = true → exec .sbenc s = .next t →
    ∀ k, k < t.olen.toNat → (t.byteAt .obuf k).toNat ≤ 0x7F)

/-- SBDEC (R116, R111, R117): with ILEN even and within the buffer, and with HICHK = 1 no high element above 1, it
completes with lo OR-ed with bit 0 of hi at bit 7, for each pair. -/
def Obligations.SbdecCompletes : Prop :=
  ∀ s : State, s.ilen.toNat ≤ s.params.bufBytes → s.ilen.toNat % 2 = 0 →
    (s.hichk = true → ∀ j, 2 * j + 1 < s.ilen.toNat → (s.byteAt .ibuf (2 * j + 1)).toNat ≤ 1) →
    ∃ t, exec .sbdec s = .next t ∧
      s.CompletesWith t
        ((List.range (s.ilen.toNat / 2)).map (fun j =>
          s.byteAt .ibuf (2 * j) ||| (if (s.byteAt .ibuf (2 * j + 1)).getLsbD 0 then 0x80#8 else 0#8))) 0

/-- R114: decoding what was encoded gives the bytes back, in both modes, of the functions and on the block. -/
def Obligations.EncodeThenDecode : Prop :=
  (∀ (xs : List Byte) (h : Bool), sbDecode (sbEncode xs) h = .ok xs) ∧
  (∀ s t u : State, s.params.wellFormed = true → 2 * s.ilen.toNat ≤ s.params.bufBytes →
    exec .sbenc s = .next t → u.params.bufBytes = s.params.bufBytes → u.ilen = t.olen →
    (∀ k, k < t.olen.toNat → u.byteAt .ibuf k = t.byteAt .obuf k) →
    ∃ v, exec .sbdec u = .next v ∧ v.err = none ∧ v.olen = s.ilen ∧
      ∀ k, k < s.ilen.toNat → v.byteAt .obuf k = s.byteAt .ibuf k)

/-- R115: re-encoding what was decoded gives the frame back exactly for the even-length frames whose even-indexed
elements are at most 0x7F and whose odd-indexed elements are 0 or 1. -/
def Obligations.DecodeThenEncode : Prop :=
  ∀ (ys : List Byte) (h : Bool),
    (∃ xs, sbDecode ys h = .ok xs ∧ sbEncode xs = ys) ↔
      ys.length % 2 = 0 ∧
        ∀ j (hj : j < ys.length), (j % 2 = 0 → ys[j].toNat ≤ 0x7F) ∧ (j % 2 = 1 → ys[j].toNat ≤ 1)

/-! ### CKSUM, BUILD and PARSE -/

/-- R130: the checksum is the seed plus the sum of the bytes, mod 256. -/
def Obligations.ChecksumIsTheSum : Prop :=
  ∀ (seed : Byte) (bs : List Byte), (checksum seed bs).toNat = (seed.toNat + byteSum bs) % 256

/-- R133: determinism (on the block), order independence, seeding, extension, and detection of a changed byte. -/
def Obligations.ChecksumLaws : Prop :=
  (∀ s s' t t' : State, s.addr = s'.addr → s.SameInput s' → exec .cksum s = .next t → exec .cksum s' = .next t' →
    t.result = t'.result) ∧
  (∀ (seed : Byte) (bs cs : List Byte), bs.Perm cs → checksum seed bs = checksum seed cs) ∧
  (∀ (seed : Byte) (bs : List Byte), checksum seed bs = checksum 0 ([seed] ++ bs)) ∧
  (∀ (seed b : Byte) (bs : List Byte), checksum seed (bs ++ [b]) = checksum seed bs + b) ∧
  (∀ (seed b : Byte) (bs : List Byte) (j : Nat) (h : j < bs.length), bs[j] ≠ b →
    checksum seed (bs.set j b) ≠ checksum seed bs)

/-- CKSUM (R135): with ILEN within the buffer it completes with ADDR plus the sum of IBUF[0..ILEN), mod 256. -/
def Obligations.CksumCompletes : Prop :=
  ∀ s : State, s.ilen.toNat ≤ s.params.bufBytes →
    ∃ t, exec .cksum s = .next t ∧
      s.CompletesWith t []
        (BitVec.ofNat 64
          ((s.addr.toNat + ((List.range s.ilen.toNat).map (fun j => (s.byteAt .ibuf j).toNat)).sum) % 256))

/-- BUILD (R140, R142, R57): with NF within the table, every used descriptor valid, the frame within OBUF, and in
strict mode every value in range, it completes with the address byte when ADDRPFX = 1, the opcode, the fields in
descriptor order, and the checksum of ADDR, opcode and fields, which is RESULT. -/
def Obligations.BuildCompletes : Prop :=
  ∀ s : State, s.params.wellFormed = true → s.nf.toNat ≤ s.nfMax →
    (∀ slot ∈ s.slots.take s.nf.toNat, fdOk slot.desc = true) → ¬ s.FrameTooLong →
    (s.strict = true → ∀ slot ∈ s.slots.take s.nf.toNat, SlotInRange slot) →
    let body := s.opc :: (s.slots.take s.nf.toNat).flatMap slotBytes
    let c := BitVec.ofNat 8 (s.addr.toNat + byteSum body)
    ∃ t, exec .build s = .next t ∧
      s.CompletesWith t ((if s.ctrl.getLsbD 2 then [s.addr] else []) ++ body ++ [c]) (c.zeroExtend 64)

/-- R141: the last byte of a built frame is the checksum of the bytes before it, seeded with 0 when the address byte
is among them and with ADDR when it is not; it is the same value in both forms. -/
def Obligations.BuiltFrameChecks : Prop :=
  ∀ s t : State, s.params.wellFormed = true → exec .build s = .next t → t.err = none →
    0 < t.olen.toNat ∧
    t.byteAt .obuf (t.olen.toNat - 1) =
      checksum (if s.ctrl.getLsbD 2 then 0 else s.addr) (t.memRead .obuf 0 (t.olen.toNat - 1)) ∧
    t.result = (t.byteAt .obuf (t.olen.toNat - 1)).zeroExtend 64 ∧
    ∀ t', exec .build { s with ctrl := s.ctrl ^^^ 0x04 } = .next t' → t'.err = none →
      t'.byteAt .obuf (t'.olen.toNat - 1) = t.byteAt .obuf (t.olen.toNat - 1)

/-- The length of a packed field is what its descriptor says (R132, R78), and an invalid descriptor is no field. -/
def Obligations.FieldLengths : Prop :=
  ∀ (fd : Byte) (V : Int) (strict : Bool),
    (fdOk fd = true ↔ ∃ f, fieldOf fd = some f) ∧
    ∀ f bs, fieldOf fd = some f → fieldBytes f V strict = .ok bs →
      bs.length = if fd.getLsbD 5 then 2 else wcodeBytes fd

/-- PARSE (R150, R153): with ILEN within the buffer and equal to 2 + EXPW, and the checksum of all bytes but the last
equal to the last, it completes with the field bytes, and the opcode echo in RESULT, whatever CTRL holds. -/
def Obligations.ParseCompletes : Prop :=
  ∀ s : State, s.ilen.toNat ≤ s.params.bufBytes → s.ilen.toNat = 2 + s.expw.toNat →
    (s.addr.toNat + ((List.range (1 + s.expw.toNat)).map (fun j => (s.byteAt .ibuf j).toNat)).sum) % 256 =
      (s.byteAt .ibuf (1 + s.expw.toNat)).toNat →
    ∃ t, exec .parse s = .next t ∧
      s.CompletesWith t ((List.range s.expw.toNat).map (fun j => s.byteAt .ibuf (1 + j)))
        ((s.byteAt .ibuf 0).zeroExtend 64)

/-- R151: the length is checked before the checksum. A frame of the wrong length is MALFORMED whatever its checksum;
one of the right length with a wrong checksum is CHECKSUM. -/
def Obligations.ParseChecksLengthFirst : Prop :=
  ∀ s : State, s.ilen.toNat ≤ s.params.bufBytes →
    (s.ilen.toNat ≠ 2 + s.expw.toNat → exec .parse s = .next (s.aborted .malformed)) ∧
    (s.ilen.toNat = 2 + s.expw.toNat →
      (s.addr.toNat + ((List.range (1 + s.expw.toNat)).map (fun j => (s.byteAt .ibuf j).toNat)).sum) % 256 ≠
        (s.byteAt .ibuf (1 + s.expw.toNat)).toNat →
      exec .parse s = .next (s.aborted .checksum))

/-- After a PARSE that reported no error, an UNPACK at OFFSET 1 + k reads the field that starts k bytes into the field
bytes PARSE put in OBUF (R152). -/
def Obligations.UnpackAfterParse : Prop :=
  ∀ (s t : State) (w : Width) (ord : ByteOrder) (sgn : Signedness) (k : Nat),
    exec .parse s = .next t → t.err = none → k + w.bytes ≤ s.expw.toNat →
    ∃ v, exec (.unpackInt w ord sgn) (t.writeReg .offset (1 + k)) = .next v ∧ v.err = none ∧
      v.result = BitVec.ofInt 64 (intUnpack (t.memRead .obuf k w.bytes) w ord sgn)

/-! ### The step -/

/-- A step runs the decoded command (R193): once the latency of an issued word has run out, the step is the meaning
of the command it decodes to, or the abort ILLEGAL. -/
def Obligations.StepRunsTheDecodedCommand : Prop :=
  ∀ s : State, s.busy = true → s.wait = 0 →
    (∀ i, decode s.cw = .ok i → step s = exec i s) ∧
    (∀ g, decode s.cw = .error g → step s = .next (s.aborted .illegal))

/-- While BUSY = 1 a read of STATUS and WAIT are allowed (R197): they return BUSY = 1, bits 7:5 are 0 and no bit
stands above them, ERR is the free value of this read (log 7), and nothing changes but the host's side and the
running latency. That each of them takes exactly one turn off the latency is the model's choice (log 15), and so is
that WAIT stays on the host's list until it has read BUSY = 0 (log 25, from R84). -/
def Obligations.PollingWhileBusy : Prop :=
  ∀ (s : State) (rest : List HostOp), s.busy = true → 0 < s.wait →
    s.host = .wait :: rest ∨ s.host = hostRd .status :: rest →
    ∃ t, step s = .next t ∧ t.rdata.toNat = 16 + (Config.busyErr s.reads).toNat ∧
      t.host = (if s.host = .wait :: rest then .wait :: rest else rest) ∧
      t = { s with rdata := t.rdata, reads := s.reads + 1, host := t.host, wait := s.wait - 1 }

/-- The busy hazard (R195, R197) is the one reason for a refusal, and a step is refused for it exactly when BUSY = 1,
the command in flight has latency left, and the host's next access is an access to the block other than a read of
STATUS. That a command without latency left completes before the host's next access, which is then no violation, is
the model's choice (log 15). -/
def Obligations.RefusedExactlyOnTheBusyHazard : Prop :=
  ∀ s : State,
    (∀ r, step s = .refused r → r = .busyHazard) ∧
    (step s = .refused .busyHazard ↔
      s.busy = true ∧ 0 < s.wait ∧
        ∃ op rest tg, s.host = op :: rest ∧
          ((∃ l v, op = .write l v ∧ s.locate l = some tg) ∨
           (∃ l, op = .read l ∧ s.locate l = some tg ∧ tg ≠ .reg 0x01)))

/-- A host that keeps R197 is never stopped. -/
def Obligations.DisciplinedHostStepsOn : Prop := ∀ s : State, s.HostKeepsBusyRule → s.StepsOn

/-- Every poll loop ends (R194). A WAIT made while BUSY = 1 is done, with BUSY = 0, after as many steps as the latency
has turns left and two, whatever the host does after it. And BUSY is 0 after as many steps as the latency has turns
left and one, when the host starts with polls (WAITs and reads of STATUS, direct or through HOST_MAP) that are as
many as those turns, or makes no other access at all. R194 gives no number of steps: these are the model's count in
host turns (logs 3 and 15). -/
def Obligations.PollingEnds : Prop :=
  (∀ (s : State) (rest : List HostOp), s.busy = true → s.host = .wait :: rest →
    ∃ t, core.run (s.wait + 2) s = .next t ∧ t.busy = false ∧ t.host = rest) ∧
  (∀ (s : State) (polls rest : List HostOp), s.busy = true → s.host = polls ++ rest →
    (∀ op ∈ polls, s.Polls op) → s.wait ≤ polls.length ∨ rest = [] →
    ∃ t, core.run (s.wait + 1) s = .next t ∧ t.busy = false)

/-- The collapsed model is exact (R195): writing CMD and waiting, whatever the latency n of the command (also 0, where
the list of latencies has run out), ends in the very state the merged step gives, with nothing changed beside but the
host's side (the list, the latency entry used, and the host's reads, the last of which returned STATUS). That this
takes n + 3 steps is the model's count in host turns (logs 3 and 15). -/
def Obligations.CollapsedCommandIsExact : Prop :=
  ∀ (s : State) (v : Nat) (rest : List HostOp),
    s.busy = false → s.host = hostWr .cmd v :: .wait :: rest →
    let n := s.latency.headD 0
    ∃ c, engineStep { s with cw := BitVec.ofNat 16 v, busy := true, wait := 0 } = .next c ∧
      core.run (n + 3) s = .next { c with
        host := rest
        latency := s.latency.tail
        reads := s.reads + n + 1
        rdata := (errCode c.err).zeroExtend 64 }

/-- Every step keeps the invariant (R7, R31, R37, R38, R162; the canonical form of the buffers), from every state that
meets it and for every host. -/
def Obligations.StepKeepsTheInvariant : Prop := ∀ s t : State, s.Inv → step s = .next t → t.Inv

/-- The state after reset meets the invariant, at every allowed value of the parameters. -/
def Obligations.ResetMeetsTheInvariant : Prop :=
  State.reset.Inv ∧
  ∀ (p : Params) (nfMax : Nat) (lat : List Nat), p.wellFormed = true → nfMaxWellFormed nfMax = true →
    (State.init p nfMax lat).Inv
end

