-- ==== Sys2Proof/Laws/State.lean ====
section
/-! SUPPORT. One lemma per field per update of State, so that no later proof unfolds a record update. -/

namespace Sys2Proof.Machine

@[simp] theorem State.succeed_params (s : State) (o : Output) : (s.succeed o).params = s.params := rfl
@[simp] theorem State.succeed_ctrl (s : State) (o : Output) : (s.succeed o).ctrl = s.ctrl := rfl
@[simp] theorem State.succeed_err (s : State) (o : Output) : (s.succeed o).err = none := rfl
@[simp] theorem State.succeed_busy (s : State) (o : Output) : (s.succeed o).busy = false := rfl
@[simp] theorem State.succeed_cw (s : State) (o : Output) : (s.succeed o).cw = s.cw := rfl
@[simp] theorem State.succeed_addr (s : State) (o : Output) : (s.succeed o).addr = s.addr := rfl
@[simp] theorem State.succeed_opc (s : State) (o : Output) : (s.succeed o).opc = s.opc := rfl
@[simp] theorem State.succeed_nf (s : State) (o : Output) : (s.succeed o).nf = s.nf := rfl
@[simp] theorem State.succeed_offset (s : State) (o : Output) : (s.succeed o).offset = s.offset := rfl
@[simp] theorem State.succeed_expw (s : State) (o : Output) : (s.succeed o).expw = s.expw := rfl
@[simp] theorem State.succeed_ilen (s : State) (o : Output) : (s.succeed o).ilen = s.ilen := rfl
@[simp] theorem State.succeed_olen (s : State) (o : Output) : (s.succeed o).olen = BitVec.ofNat 16 o.bytes.length := rfl
@[simp] theorem State.succeed_value (s : State) (o : Output) : (s.succeed o).value = s.value := rfl
@[simp] theorem State.succeed_result (s : State) (o : Output) : (s.succeed o).result = o.result := rfl
@[simp] theorem State.succeed_slots (s : State) (o : Output) : (s.succeed o).slots = s.slots := rfl
@[simp] theorem State.succeed_ibuf (s : State) (o : Output) : (s.succeed o).ibuf = s.ibuf := rfl
@[simp] theorem State.succeed_obuf (s : State) (o : Output) : (s.succeed o).obuf = memWrite s.obuf 0 o.bytes := rfl
@[simp] theorem State.succeed_wait (s : State) (o : Output) : (s.succeed o).wait = s.wait := rfl
@[simp] theorem State.succeed_latency (s : State) (o : Output) : (s.succeed o).latency = s.latency := rfl
@[simp] theorem State.succeed_host (s : State) (o : Output) : (s.succeed o).host = s.host := rfl
@[simp] theorem State.succeed_rdata (s : State) (o : Output) : (s.succeed o).rdata = s.rdata := rfl
@[simp] theorem State.succeed_resets (s : State) (o : Output) : (s.succeed o).resets = s.resets := rfl
@[simp] theorem State.succeed_reads (s : State) (o : Output) : (s.succeed o).reads = s.reads := rfl

@[simp] theorem State.errorAbort_params (s : State) (e : Err) : (s.errorAbort e).params = s.params := rfl
@[simp] theorem State.errorAbort_ctrl (s : State) (e : Err) : (s.errorAbort e).ctrl = s.ctrl := rfl
@[simp] theorem State.errorAbort_err (s : State) (e : Err) : (s.errorAbort e).err = some e := rfl
@[simp] theorem State.errorAbort_busy (s : State) (e : Err) : (s.errorAbort e).busy = false := rfl
@[simp] theorem State.errorAbort_cw (s : State) (e : Err) : (s.errorAbort e).cw = s.cw := rfl
@[simp] theorem State.errorAbort_addr (s : State) (e : Err) : (s.errorAbort e).addr = s.addr := rfl
@[simp] theorem State.errorAbort_opc (s : State) (e : Err) : (s.errorAbort e).opc = s.opc := rfl
@[simp] theorem State.errorAbort_nf (s : State) (e : Err) : (s.errorAbort e).nf = s.nf := rfl
@[simp] theorem State.errorAbort_offset (s : State) (e : Err) : (s.errorAbort e).offset = s.offset := rfl
@[simp] theorem State.errorAbort_expw (s : State) (e : Err) : (s.errorAbort e).expw = s.expw := rfl
@[simp] theorem State.errorAbort_ilen (s : State) (e : Err) : (s.errorAbort e).ilen = s.ilen := rfl
@[simp] theorem State.errorAbort_olen (s : State) (e : Err) : (s.errorAbort e).olen = 0 := rfl
@[simp] theorem State.errorAbort_value (s : State) (e : Err) : (s.errorAbort e).value = s.value := rfl
@[simp] theorem State.errorAbort_result (s : State) (e : Err) : (s.errorAbort e).result = 0 := rfl
@[simp] theorem State.errorAbort_slots (s : State) (e : Err) : (s.errorAbort e).slots = s.slots := rfl
@[simp] theorem State.errorAbort_ibuf (s : State) (e : Err) : (s.errorAbort e).ibuf = s.ibuf := rfl
@[simp] theorem State.errorAbort_obuf (s : State) (e : Err) : (s.errorAbort e).obuf = s.obuf := rfl
@[simp] theorem State.errorAbort_wait (s : State) (e : Err) : (s.errorAbort e).wait = s.wait := rfl
@[simp] theorem State.errorAbort_latency (s : State) (e : Err) : (s.errorAbort e).latency = s.latency := rfl
@[simp] theorem State.errorAbort_host (s : State) (e : Err) : (s.errorAbort e).host = s.host := rfl
@[simp] theorem State.errorAbort_rdata (s : State) (e : Err) : (s.errorAbort e).rdata = s.rdata := rfl
@[simp] theorem State.errorAbort_resets (s : State) (e : Err) : (s.errorAbort e).resets = s.resets := rfl
@[simp] theorem State.errorAbort_reads (s : State) (e : Err) : (s.errorAbort e).reads = s.reads := rfl

@[simp] theorem State.issue_params (s : State) (w : CmdWord) : (s.issue w).params = s.params := rfl
@[simp] theorem State.issue_ctrl (s : State) (w : CmdWord) : (s.issue w).ctrl = s.ctrl := rfl
@[simp] theorem State.issue_err (s : State) (w : CmdWord) : (s.issue w).err = s.err := rfl
@[simp] theorem State.issue_busy (s : State) (w : CmdWord) : (s.issue w).busy = true := rfl
@[simp] theorem State.issue_cw (s : State) (w : CmdWord) : (s.issue w).cw = w := rfl
@[simp] theorem State.issue_addr (s : State) (w : CmdWord) : (s.issue w).addr = s.addr := rfl
@[simp] theorem State.issue_opc (s : State) (w : CmdWord) : (s.issue w).opc = s.opc := rfl
@[simp] theorem State.issue_nf (s : State) (w : CmdWord) : (s.issue w).nf = s.nf := rfl
@[simp] theorem State.issue_offset (s : State) (w : CmdWord) : (s.issue w).offset = s.offset := rfl
@[simp] theorem State.issue_expw (s : State) (w : CmdWord) : (s.issue w).expw = s.expw := rfl
@[simp] theorem State.issue_ilen (s : State) (w : CmdWord) : (s.issue w).ilen = s.ilen := rfl
@[simp] theorem State.issue_olen (s : State) (w : CmdWord) : (s.issue w).olen = s.olen := rfl
@[simp] theorem State.issue_value (s : State) (w : CmdWord) : (s.issue w).value = s.value := rfl
@[simp] theorem State.issue_result (s : State) (w : CmdWord) : (s.issue w).result = s.result := rfl
@[simp] theorem State.issue_slots (s : State) (w : CmdWord) : (s.issue w).slots = s.slots := rfl
@[simp] theorem State.issue_ibuf (s : State) (w : CmdWord) : (s.issue w).ibuf = s.ibuf := rfl
@[simp] theorem State.issue_obuf (s : State) (w : CmdWord) : (s.issue w).obuf = s.obuf := rfl
@[simp] theorem State.issue_wait (s : State) (w : CmdWord) : (s.issue w).wait = s.latency.headD 0 := rfl
@[simp] theorem State.issue_latency (s : State) (w : CmdWord) : (s.issue w).latency = s.latency.tail := rfl
@[simp] theorem State.issue_host (s : State) (w : CmdWord) : (s.issue w).host = s.host := rfl
@[simp] theorem State.issue_rdata (s : State) (w : CmdWord) : (s.issue w).rdata = s.rdata := rfl
@[simp] theorem State.issue_resets (s : State) (w : CmdWord) : (s.issue w).resets = s.resets := rfl
@[simp] theorem State.issue_reads (s : State) (w : CmdWord) : (s.issue w).reads = s.reads := rfl

@[simp] theorem State.noteRead_params (s : State) (v : BitVec 64) : (s.noteRead v).params = s.params := rfl
@[simp] theorem State.noteRead_ctrl (s : State) (v : BitVec 64) : (s.noteRead v).ctrl = s.ctrl := rfl
@[simp] theorem State.noteRead_err (s : State) (v : BitVec 64) : (s.noteRead v).err = s.err := rfl
@[simp] theorem State.noteRead_busy (s : State) (v : BitVec 64) : (s.noteRead v).busy = s.busy := rfl
@[simp] theorem State.noteRead_cw (s : State) (v : BitVec 64) : (s.noteRead v).cw = s.cw := rfl
@[simp] theorem State.noteRead_addr (s : State) (v : BitVec 64) : (s.noteRead v).addr = s.addr := rfl
@[simp] theorem State.noteRead_opc (s : State) (v : BitVec 64) : (s.noteRead v).opc = s.opc := rfl
@[simp] theorem State.noteRead_nf (s : State) (v : BitVec 64) : (s.noteRead v).nf = s.nf := rfl
@[simp] theorem State.noteRead_offset (s : State) (v : BitVec 64) : (s.noteRead v).offset = s.offset := rfl
@[simp] theorem State.noteRead_expw (s : State) (v : BitVec 64) : (s.noteRead v).expw = s.expw := rfl
@[simp] theorem State.noteRead_ilen (s : State) (v : BitVec 64) : (s.noteRead v).ilen = s.ilen := rfl
@[simp] theorem State.noteRead_olen (s : State) (v : BitVec 64) : (s.noteRead v).olen = s.olen := rfl
@[simp] theorem State.noteRead_value (s : State) (v : BitVec 64) : (s.noteRead v).value = s.value := rfl
@[simp] theorem State.noteRead_result (s : State) (v : BitVec 64) : (s.noteRead v).result = s.result := rfl
@[simp] theorem State.noteRead_slots (s : State) (v : BitVec 64) : (s.noteRead v).slots = s.slots := rfl
@[simp] theorem State.noteRead_ibuf (s : State) (v : BitVec 64) : (s.noteRead v).ibuf = s.ibuf := rfl
@[simp] theorem State.noteRead_obuf (s : State) (v : BitVec 64) : (s.noteRead v).obuf = s.obuf := rfl
@[simp] theorem State.noteRead_wait (s : State) (v : BitVec 64) : (s.noteRead v).wait = s.wait := rfl
@[simp] theorem State.noteRead_latency (s : State) (v : BitVec 64) : (s.noteRead v).latency = s.latency := rfl
@[simp] theorem State.noteRead_host (s : State) (v : BitVec 64) : (s.noteRead v).host = s.host := rfl
@[simp] theorem State.noteRead_rdata (s : State) (v : BitVec 64) : (s.noteRead v).rdata = v := rfl
@[simp] theorem State.noteRead_resets (s : State) (v : BitVec 64) : (s.noteRead v).resets = s.resets := rfl
@[simp] theorem State.noteRead_reads (s : State) (v : BitVec 64) : (s.noteRead v).reads = s.reads + 1 := rfl

@[simp] theorem State.elapse_params (s : State) : (s.elapse).params = s.params := rfl
@[simp] theorem State.elapse_ctrl (s : State) : (s.elapse).ctrl = s.ctrl := rfl
@[simp] theorem State.elapse_err (s : State) : (s.elapse).err = s.err := rfl
@[simp] theorem State.elapse_busy (s : State) : (s.elapse).busy = s.busy := rfl
@[simp] theorem State.elapse_cw (s : State) : (s.elapse).cw = s.cw := rfl
@[simp] theorem State.elapse_addr (s : State) : (s.elapse).addr = s.addr := rfl
@[simp] theorem State.elapse_opc (s : State) : (s.elapse).opc = s.opc := rfl
@[simp] theorem State.elapse_nf (s : State) : (s.elapse).nf = s.nf := rfl
@[simp] theorem State.elapse_offset (s : State) : (s.elapse).offset = s.offset := rfl
@[simp] theorem State.elapse_expw (s : State) : (s.elapse).expw = s.expw := rfl
@[simp] theorem State.elapse_ilen (s : State) : (s.elapse).ilen = s.ilen := rfl
@[simp] theorem State.elapse_olen (s : State) : (s.elapse).olen = s.olen := rfl
@[simp] theorem State.elapse_value (s : State) : (s.elapse).value = s.value := rfl
@[simp] theorem State.elapse_result (s : State) : (s.elapse).result = s.result := rfl
@[simp] theorem State.elapse_slots (s : State) : (s.elapse).slots = s.slots := rfl
@[simp] theorem State.elapse_ibuf (s : State) : (s.elapse).ibuf = s.ibuf := rfl
@[simp] theorem State.elapse_obuf (s : State) : (s.elapse).obuf = s.obuf := rfl
@[simp] theorem State.elapse_wait (s : State) : (s.elapse).wait = s.wait - 1 := rfl
@[simp] theorem State.elapse_latency (s : State) : (s.elapse).latency = s.latency := rfl
@[simp] theorem State.elapse_host (s : State) : (s.elapse).host = s.host := rfl
@[simp] theorem State.elapse_rdata (s : State) : (s.elapse).rdata = s.rdata := rfl
@[simp] theorem State.elapse_resets (s : State) : (s.elapse).resets = s.resets := rfl
@[simp] theorem State.elapse_reads (s : State) : (s.elapse).reads = s.reads := rfl

@[simp] theorem State.withFetchWord_params (s : State) (nbits w : Nat) : (s.withFetchWord nbits w).params = s.params := rfl
@[simp] theorem State.withFetchWord_ctrl (s : State) (nbits w : Nat) : (s.withFetchWord nbits w).ctrl = s.ctrl := rfl
@[simp] theorem State.withFetchWord_err (s : State) (nbits w : Nat) : (s.withFetchWord nbits w).err = s.err := rfl
@[simp] theorem State.withFetchWord_busy (s : State) (nbits w : Nat) : (s.withFetchWord nbits w).busy = true := rfl
@[simp] theorem State.withFetchWord_cw (s : State) (nbits w : Nat) : (s.withFetchWord nbits w).cw = BitVec.ofNat 16 (w % 2 ^ nbits) := rfl
@[simp] theorem State.withFetchWord_addr (s : State) (nbits w : Nat) : (s.withFetchWord nbits w).addr = s.addr := rfl
@[simp] theorem State.withFetchWord_opc (s : State) (nbits w : Nat) : (s.withFetchWord nbits w).opc = s.opc := rfl
@[simp] theorem State.withFetchWord_nf (s : State) (nbits w : Nat) : (s.withFetchWord nbits w).nf = s.nf := rfl
@[simp] theorem State.withFetchWord_offset (s : State) (nbits w : Nat) : (s.withFetchWord nbits w).offset = s.offset := rfl
@[simp] theorem State.withFetchWord_expw (s : State) (nbits w : Nat) : (s.withFetchWord nbits w).expw = s.expw := rfl
@[simp] theorem State.withFetchWord_ilen (s : State) (nbits w : Nat) : (s.withFetchWord nbits w).ilen = s.ilen := rfl
@[simp] theorem State.withFetchWord_olen (s : State) (nbits w : Nat) : (s.withFetchWord nbits w).olen = s.olen := rfl
@[simp] theorem State.withFetchWord_value (s : State) (nbits w : Nat) : (s.withFetchWord nbits w).value = s.value := rfl
@[simp] theorem State.withFetchWord_result (s : State) (nbits w : Nat) : (s.withFetchWord nbits w).result = s.result := rfl
@[simp] theorem State.withFetchWord_slots (s : State) (nbits w : Nat) : (s.withFetchWord nbits w).slots = s.slots := rfl
@[simp] theorem State.withFetchWord_ibuf (s : State) (nbits w : Nat) : (s.withFetchWord nbits w).ibuf = s.ibuf := rfl
@[simp] theorem State.withFetchWord_obuf (s : State) (nbits w : Nat) : (s.withFetchWord nbits w).obuf = s.obuf := rfl
@[simp] theorem State.withFetchWord_wait (s : State) (nbits w : Nat) : (s.withFetchWord nbits w).wait = 0 := rfl
@[simp] theorem State.withFetchWord_latency (s : State) (nbits w : Nat) : (s.withFetchWord nbits w).latency = s.latency := rfl
@[simp] theorem State.withFetchWord_host (s : State) (nbits w : Nat) : (s.withFetchWord nbits w).host = s.host := rfl
@[simp] theorem State.withFetchWord_rdata (s : State) (nbits w : Nat) : (s.withFetchWord nbits w).rdata = s.rdata := rfl
@[simp] theorem State.withFetchWord_resets (s : State) (nbits w : Nat) : (s.withFetchWord nbits w).resets = s.resets := rfl
@[simp] theorem State.withFetchWord_reads (s : State) (nbits w : Nat) : (s.withFetchWord nbits w).reads = s.reads := rfl

@[simp] theorem State.withHost_params (s : State) (ops : List HostOp) : (s.withHost ops).params = s.params := rfl
@[simp] theorem State.withHost_ctrl (s : State) (ops : List HostOp) : (s.withHost ops).ctrl = s.ctrl := rfl
@[simp] theorem State.withHost_err (s : State) (ops : List HostOp) : (s.withHost ops).err = s.err := rfl
@[simp] theorem State.withHost_busy (s : State) (ops : List HostOp) : (s.withHost ops).busy = s.busy := rfl
@[simp] theorem State.withHost_cw (s : State) (ops : List HostOp) : (s.withHost ops).cw = s.cw := rfl
@[simp] theorem State.withHost_addr (s : State) (ops : List HostOp) : (s.withHost ops).addr = s.addr := rfl
@[simp] theorem State.withHost_opc (s : State) (ops : List HostOp) : (s.withHost ops).opc = s.opc := rfl
@[simp] theorem State.withHost_nf (s : State) (ops : List HostOp) : (s.withHost ops).nf = s.nf := rfl
@[simp] theorem State.withHost_offset (s : State) (ops : List HostOp) : (s.withHost ops).offset = s.offset := rfl
@[simp] theorem State.withHost_expw (s : State) (ops : List HostOp) : (s.withHost ops).expw = s.expw := rfl
@[simp] theorem State.withHost_ilen (s : State) (ops : List HostOp) : (s.withHost ops).ilen = s.ilen := rfl
@[simp] theorem State.withHost_olen (s : State) (ops : List HostOp) : (s.withHost ops).olen = s.olen := rfl
@[simp] theorem State.withHost_value (s : State) (ops : List HostOp) : (s.withHost ops).value = s.value := rfl
@[simp] theorem State.withHost_result (s : State) (ops : List HostOp) : (s.withHost ops).result = s.result := rfl
@[simp] theorem State.withHost_slots (s : State) (ops : List HostOp) : (s.withHost ops).slots = s.slots := rfl
@[simp] theorem State.withHost_ibuf (s : State) (ops : List HostOp) : (s.withHost ops).ibuf = s.ibuf := rfl
@[simp] theorem State.withHost_obuf (s : State) (ops : List HostOp) : (s.withHost ops).obuf = s.obuf := rfl
@[simp] theorem State.withHost_wait (s : State) (ops : List HostOp) : (s.withHost ops).wait = s.wait := rfl
@[simp] theorem State.withHost_latency (s : State) (ops : List HostOp) : (s.withHost ops).latency = s.latency := rfl
@[simp] theorem State.withHost_host (s : State) (ops : List HostOp) : (s.withHost ops).host = s.host ++ ops := rfl
@[simp] theorem State.withHost_rdata (s : State) (ops : List HostOp) : (s.withHost ops).rdata = s.rdata := rfl
@[simp] theorem State.withHost_resets (s : State) (ops : List HostOp) : (s.withHost ops).resets = s.resets := rfl
@[simp] theorem State.withHost_reads (s : State) (ops : List HostOp) : (s.withHost ops).reads = s.reads := rfl

@[simp] theorem State.setHost_params (s : State) (ops : List HostOp) : (s.setHost ops).params = s.params := rfl
@[simp] theorem State.setHost_ctrl (s : State) (ops : List HostOp) : (s.setHost ops).ctrl = s.ctrl := rfl
@[simp] theorem State.setHost_err (s : State) (ops : List HostOp) : (s.setHost ops).err = s.err := rfl
@[simp] theorem State.setHost_busy (s : State) (ops : List HostOp) : (s.setHost ops).busy = s.busy := rfl
@[simp] theorem State.setHost_cw (s : State) (ops : List HostOp) : (s.setHost ops).cw = s.cw := rfl
@[simp] theorem State.setHost_addr (s : State) (ops : List HostOp) : (s.setHost ops).addr = s.addr := rfl
@[simp] theorem State.setHost_opc (s : State) (ops : List HostOp) : (s.setHost ops).opc = s.opc := rfl
@[simp] theorem State.setHost_nf (s : State) (ops : List HostOp) : (s.setHost ops).nf = s.nf := rfl
@[simp] theorem State.setHost_offset (s : State) (ops : List HostOp) : (s.setHost ops).offset = s.offset := rfl
@[simp] theorem State.setHost_expw (s : State) (ops : List HostOp) : (s.setHost ops).expw = s.expw := rfl
@[simp] theorem State.setHost_ilen (s : State) (ops : List HostOp) : (s.setHost ops).ilen = s.ilen := rfl
@[simp] theorem State.setHost_olen (s : State) (ops : List HostOp) : (s.setHost ops).olen = s.olen := rfl
@[simp] theorem State.setHost_value (s : State) (ops : List HostOp) : (s.setHost ops).value = s.value := rfl
@[simp] theorem State.setHost_result (s : State) (ops : List HostOp) : (s.setHost ops).result = s.result := rfl
@[simp] theorem State.setHost_slots (s : State) (ops : List HostOp) : (s.setHost ops).slots = s.slots := rfl
@[simp] theorem State.setHost_ibuf (s : State) (ops : List HostOp) : (s.setHost ops).ibuf = s.ibuf := rfl
@[simp] theorem State.setHost_obuf (s : State) (ops : List HostOp) : (s.setHost ops).obuf = s.obuf := rfl
@[simp] theorem State.setHost_wait (s : State) (ops : List HostOp) : (s.setHost ops).wait = s.wait := rfl
@[simp] theorem State.setHost_latency (s : State) (ops : List HostOp) : (s.setHost ops).latency = s.latency := rfl
@[simp] theorem State.setHost_host (s : State) (ops : List HostOp) : (s.setHost ops).host = ops := rfl
@[simp] theorem State.setHost_rdata (s : State) (ops : List HostOp) : (s.setHost ops).rdata = s.rdata := rfl
@[simp] theorem State.setHost_resets (s : State) (ops : List HostOp) : (s.setHost ops).resets = s.resets := rfl
@[simp] theorem State.setHost_reads (s : State) (ops : List HostOp) : (s.setHost ops).reads = s.reads := rfl
@[simp] theorem State.setHost_readReg (s : State) (ops : List HostOp) (r : Reg) :
    (s.setHost ops).readReg r = s.readReg r := by cases r <;> rfl
@[simp] theorem State.setHost_byteAt (s : State) (ops : List HostOp) (b : Buffer) (k : Nat) :
    (s.setHost ops).byteAt b k = s.byteAt b k := by cases b <;> rfl
@[simp] theorem State.setHost_nfMax (s : State) (ops : List HostOp) : (s.setHost ops).nfMax = s.nfMax := rfl
@[simp] theorem State.setHost_status (s : State) (ops : List HostOp) : (s.setHost ops).status = s.status := rfl

@[simp] theorem State.blockReset_params (s : State) : s.blockReset.params = s.params := rfl
@[simp] theorem State.blockReset_ctrl (s : State) : s.blockReset.ctrl = 0x04 := rfl
@[simp] theorem State.blockReset_err (s : State) : s.blockReset.err = none := rfl
@[simp] theorem State.blockReset_busy (s : State) : s.blockReset.busy = false := rfl
@[simp] theorem State.blockReset_cw (s : State) : s.blockReset.cw = 0 := rfl
@[simp] theorem State.blockReset_addr (s : State) : s.blockReset.addr = 0 := rfl
@[simp] theorem State.blockReset_opc (s : State) : s.blockReset.opc = 0 := rfl
@[simp] theorem State.blockReset_nf (s : State) : s.blockReset.nf = 0 := rfl
@[simp] theorem State.blockReset_offset (s : State) : s.blockReset.offset = 0 := rfl
@[simp] theorem State.blockReset_expw (s : State) : s.blockReset.expw = 0 := rfl
@[simp] theorem State.blockReset_ilen (s : State) : s.blockReset.ilen = 0 := rfl
@[simp] theorem State.blockReset_olen (s : State) : s.blockReset.olen = 0 := rfl
@[simp] theorem State.blockReset_value (s : State) : s.blockReset.value = 0 := rfl
@[simp] theorem State.blockReset_result (s : State) : s.blockReset.result = 0 := rfl
@[simp] theorem State.blockReset_slots (s : State) : s.blockReset.slots = List.replicate s.nfMax ⟨0, 0⟩ := rfl
@[simp] theorem State.blockReset_ibuf (s : State) : s.blockReset.ibuf = [] := rfl
@[simp] theorem State.blockReset_obuf (s : State) : s.blockReset.obuf = [] := rfl
@[simp] theorem State.blockReset_wait (s : State) : s.blockReset.wait = 0 := rfl
@[simp] theorem State.blockReset_latency (s : State) : s.blockReset.latency = s.latency := rfl
@[simp] theorem State.blockReset_host (s : State) : s.blockReset.host = s.host := rfl
@[simp] theorem State.blockReset_rdata (s : State) : s.blockReset.rdata = s.rdata := rfl
@[simp] theorem State.blockReset_resets (s : State) : s.blockReset.resets = s.resets + 1 := rfl
@[simp] theorem State.blockReset_reads (s : State) : s.blockReset.reads = s.reads := rfl

@[simp] theorem State.init_params (p : Params) (n : Nat) (lat : List Nat) : (State.init p n lat).params = p := rfl
@[simp] theorem State.init_ctrl (p : Params) (n : Nat) (lat : List Nat) : (State.init p n lat).ctrl = 0x04 := rfl
@[simp] theorem State.init_err (p : Params) (n : Nat) (lat : List Nat) : (State.init p n lat).err = none := rfl
@[simp] theorem State.init_busy (p : Params) (n : Nat) (lat : List Nat) : (State.init p n lat).busy = false := rfl
@[simp] theorem State.init_cw (p : Params) (n : Nat) (lat : List Nat) : (State.init p n lat).cw = 0 := rfl
@[simp] theorem State.init_addr (p : Params) (n : Nat) (lat : List Nat) : (State.init p n lat).addr = 0 := rfl
@[simp] theorem State.init_opc (p : Params) (n : Nat) (lat : List Nat) : (State.init p n lat).opc = 0 := rfl
@[simp] theorem State.init_nf (p : Params) (n : Nat) (lat : List Nat) : (State.init p n lat).nf = 0 := rfl
@[simp] theorem State.init_offset (p : Params) (n : Nat) (lat : List Nat) : (State.init p n lat).offset = 0 := rfl
@[simp] theorem State.init_expw (p : Params) (n : Nat) (lat : List Nat) : (State.init p n lat).expw = 0 := rfl
@[simp] theorem State.init_ilen (p : Params) (n : Nat) (lat : List Nat) : (State.init p n lat).ilen = 0 := rfl
@[simp] theorem State.init_olen (p : Params) (n : Nat) (lat : List Nat) : (State.init p n lat).olen = 0 := rfl
@[simp] theorem State.init_value (p : Params) (n : Nat) (lat : List Nat) : (State.init p n lat).value = 0 := rfl
@[simp] theorem State.init_result (p : Params) (n : Nat) (lat : List Nat) : (State.init p n lat).result = 0 := rfl
@[simp] theorem State.init_slots (p : Params) (n : Nat) (lat : List Nat) : (State.init p n lat).slots = List.replicate n ⟨0, 0⟩ := rfl
@[simp] theorem State.init_ibuf (p : Params) (n : Nat) (lat : List Nat) : (State.init p n lat).ibuf = [] := rfl
@[simp] theorem State.init_obuf (p : Params) (n : Nat) (lat : List Nat) : (State.init p n lat).obuf = [] := rfl
@[simp] theorem State.init_wait (p : Params) (n : Nat) (lat : List Nat) : (State.init p n lat).wait = 0 := rfl
@[simp] theorem State.init_latency (p : Params) (n : Nat) (lat : List Nat) : (State.init p n lat).latency = lat := rfl
@[simp] theorem State.init_host (p : Params) (n : Nat) (lat : List Nat) : (State.init p n lat).host = [] := rfl
@[simp] theorem State.init_rdata (p : Params) (n : Nat) (lat : List Nat) : (State.init p n lat).rdata = 0 := rfl
@[simp] theorem State.init_resets (p : Params) (n : Nat) (lat : List Nat) : (State.init p n lat).resets = 0 := rfl
@[simp] theorem State.init_reads (p : Params) (n : Nat) (lat : List Nat) : (State.init p n lat).reads = 0 := rfl

@[simp] theorem State.finish_params (s : State) (r : Except Err Output) : (s.finish r).params = s.params := by cases r <;> rfl
@[simp] theorem State.finish_ctrl (s : State) (r : Except Err Output) : (s.finish r).ctrl = s.ctrl := by cases r <;> rfl
@[simp] theorem State.finish_busy (s : State) (r : Except Err Output) : (s.finish r).busy = false := by cases r <;> rfl
@[simp] theorem State.finish_cw (s : State) (r : Except Err Output) : (s.finish r).cw = s.cw := by cases r <;> rfl
@[simp] theorem State.finish_addr (s : State) (r : Except Err Output) : (s.finish r).addr = s.addr := by cases r <;> rfl
@[simp] theorem State.finish_opc (s : State) (r : Except Err Output) : (s.finish r).opc = s.opc := by cases r <;> rfl
@[simp] theorem State.finish_nf (s : State) (r : Except Err Output) : (s.finish r).nf = s.nf := by cases r <;> rfl
@[simp] theorem State.finish_offset (s : State) (r : Except Err Output) : (s.finish r).offset = s.offset := by cases r <;> rfl
@[simp] theorem State.finish_expw (s : State) (r : Except Err Output) : (s.finish r).expw = s.expw := by cases r <;> rfl
@[simp] theorem State.finish_ilen (s : State) (r : Except Err Output) : (s.finish r).ilen = s.ilen := by cases r <;> rfl
@[simp] theorem State.finish_value (s : State) (r : Except Err Output) : (s.finish r).value = s.value := by cases r <;> rfl
@[simp] theorem State.finish_slots (s : State) (r : Except Err Output) : (s.finish r).slots = s.slots := by cases r <;> rfl
@[simp] theorem State.finish_ibuf (s : State) (r : Except Err Output) : (s.finish r).ibuf = s.ibuf := by cases r <;> rfl
@[simp] theorem State.finish_wait (s : State) (r : Except Err Output) : (s.finish r).wait = s.wait := by cases r <;> rfl
@[simp] theorem State.finish_latency (s : State) (r : Except Err Output) : (s.finish r).latency = s.latency := by cases r <;> rfl
@[simp] theorem State.finish_host (s : State) (r : Except Err Output) : (s.finish r).host = s.host := by cases r <;> rfl
@[simp] theorem State.finish_rdata (s : State) (r : Except Err Output) : (s.finish r).rdata = s.rdata := by cases r <;> rfl
@[simp] theorem State.finish_resets (s : State) (r : Except Err Output) : (s.finish r).resets = s.resets := by cases r <;> rfl
@[simp] theorem State.finish_reads (s : State) (r : Except Err Output) : (s.finish r).reads = s.reads := by cases r <;> rfl

@[simp] theorem State.finish_ok (s : State) (o : Output) : s.finish (.ok o) = s.succeed o := rfl
@[simp] theorem State.finish_error (s : State) (e : Err) : s.finish (.error e) = s.errorAbort e := rfl

@[simp] theorem State.memory_ibuf (s : State) : s.memory .ibuf = s.ibuf := rfl
@[simp] theorem State.memory_obuf (s : State) : s.memory .obuf = s.obuf := rfl

@[simp] theorem State.nfMax_init (p : Params) (n : Nat) (lat : List Nat) : (State.init p n lat).nfMax = n := by
  simp [State.nfMax]
@[simp] theorem State.nfMax_blockReset (s : State) : s.blockReset.nfMax = s.nfMax := by simp [State.nfMax]
@[simp] theorem State.nfMax_finish (s : State) (r : Except Err Output) : (s.finish r).nfMax = s.nfMax := by
  simp [State.nfMax]

@[simp] theorem State.writeReg_ctrl (s : State) (v : Nat) : s.writeReg .ctrl v = { s with ctrl := ctrlMask (BitVec.ofNat 8 v) } := rfl
@[simp] theorem State.writeReg_addr (s : State) (v : Nat) : s.writeReg .addr v = { s with addr := BitVec.ofNat 8 v } := rfl
@[simp] theorem State.writeReg_opc (s : State) (v : Nat) : s.writeReg .opc v = { s with opc := BitVec.ofNat 8 v } := rfl
@[simp] theorem State.writeReg_nf (s : State) (v : Nat) : s.writeReg .nf v = { s with nf := BitVec.ofNat 8 v } := rfl
@[simp] theorem State.writeReg_offset (s : State) (v : Nat) : s.writeReg .offset v = { s with offset := BitVec.ofNat 16 v } := rfl
@[simp] theorem State.writeReg_expw (s : State) (v : Nat) : s.writeReg .expw v = { s with expw := BitVec.ofNat 16 v } := rfl
@[simp] theorem State.writeReg_ilen (s : State) (v : Nat) : s.writeReg .ilen v = { s with ilen := BitVec.ofNat 16 v } := rfl
@[simp] theorem State.writeReg_value (s : State) (v : Nat) : s.writeReg .value v = { s with value := BitVec.ofNat 64 v } := rfl
@[simp] theorem State.writeReg_status (s : State) (v : Nat) : s.writeReg .status v = s := rfl
@[simp] theorem State.writeReg_olen (s : State) (v : Nat) : s.writeReg .olen v = s := rfl
@[simp] theorem State.writeReg_result (s : State) (v : Nat) : s.writeReg .result v = s := rfl
@[simp] theorem State.writeReg_cmd (s : State) (v : Nat) : s.writeReg .cmd v = s.issue (BitVec.ofNat 16 v) := rfl

@[simp] theorem State.nfMax_writeReg (s : State) (r : Reg) (v : Nat) : (s.writeReg r v).nfMax = s.nfMax := by
  cases r <;> simp [State.writeReg, State.nfMax, State.issue]

end Sys2Proof.Machine
end

