-- ==== Sys2Proof/Laws/Memory.lean ====
section
/-! SUPPORT. Read after write, and that every buffer operation keeps the canonical form. -/

namespace Sys2Proof.Machine

@[simp] theorem memGet_nil (k : Nat) : memGet [] k = none := rfl

theorem memGet_cons (a : Nat) (x : Byte) (m : Memory) (k : Nat) :
    memGet ((a, x) :: m) k = if a = k then some x else memGet m k := rfl

/-- A canonical memory lists nothing below its first index. -/
theorem memGet_eq_none_of_lt {m : Memory} {k : Nat} (h : ∀ c ∈ m, k < c.1) : memGet m k = none := by
  induction m with
  | nil => rfl
  | cons c m ih =>
    obtain ⟨a, x⟩ := c
    have ha : k < a := h (a, x) (by simp)
    rw [memGet_cons, if_neg (by omega), ih fun c hc => h c (by simp [hc])]

/-- Reading after storing one byte. -/
theorem memGet_memSet (m : Memory) (a : Nat) (b : Byte) (k : Nat) :
    memGet (memSet m a b) k = if a = k then some b else memGet m k := by
  induction m with
  | nil => simp [memSet, memGet_cons]
  | cons c m ih =>
    obtain ⟨a', x⟩ := c
    unfold memSet
    split
    · simp only [memGet_cons]
    · split
      · subst a'; simp only [memGet_cons]; split <;> rfl
      · simp only [memGet_cons, ih]
        split <;> split <;> simp_all

@[simp] theorem memGet_memSet_same (m : Memory) (a : Nat) (b : Byte) : memGet (memSet m a b) a = some b := by
  simp [memGet_memSet]

theorem memGet_memSet_other (m : Memory) {a k : Nat} (b : Byte) (h : a ≠ k) :
    memGet (memSet m a b) k = memGet m k := by simp [memGet_memSet, h]

theorem mem_memSet {m : Memory} {a : Nat} {b : Byte} {c : Host.Cell} (h : c ∈ memSet m a b) : c = (a, b) ∨ c ∈ m := by
  induction m with
  | nil => simpa [memSet] using h
  | cons d m ih =>
    obtain ⟨a', x⟩ := d
    unfold memSet at h
    split at h
    · simpa using h
    · split at h
      · simp only [List.mem_cons] at h ⊢; tauto
      · simp only [List.mem_cons] at h ⊢
        rcases h with h | h
        · exact .inr (.inl h)
        · rcases ih h with h | h <;> simp [h]

/-- Storing a byte keeps the canonical form. -/
theorem memSet_wf {m : Memory} (h : Memory.wf m) (a : Nat) (b : Byte) : Memory.wf (memSet m a b) := by
  induction m with
  | nil => simp [memSet]
  | cons c m ih =>
    obtain ⟨a', x⟩ := c
    rw [Memory.wf, List.pairwise_cons] at h
    unfold memSet
    split
    · rename_i hlt
      simp only [List.pairwise_cons, List.mem_cons]
      refine ⟨?_, fun c hc => h.1 c hc, h.2⟩
      rintro c (rfl | hc)
      · exact hlt
      · exact lt_trans hlt (h.1 c hc)
    · split
      · rename_i heq
        exact List.pairwise_cons.2 ⟨fun c hc => heq ▸ h.1 c hc, h.2⟩
      · refine List.pairwise_cons.2 ⟨fun c hc => ?_, ih h.2⟩
        rcases mem_memSet hc with rfl | hc
        · simp only; omega
        · exact h.1 c hc

@[simp] theorem memWrite_nil (m : Memory) (i : Nat) : memWrite m i [] = m := rfl

/-- Writing a byte list keeps the canonical form. -/
theorem memWrite_wf {m : Memory} (h : Memory.wf m) (i : Nat) (bs : List Byte) : Memory.wf (memWrite m i bs) := by
  induction bs generalizing m i with
  | nil => exact h
  | cons b bs ih => exact ih (memSet_wf h i b) (i + 1)

/-- Reading after writing a byte list: the list's byte inside its extent, the old content outside. -/
theorem memGet_memWrite (m : Memory) (i : Nat) (bs : List Byte) (k : Nat) :
    memGet (memWrite m i bs) k = if i ≤ k ∧ k < i + bs.length then bs[k - i]? else memGet m k := by
  induction bs generalizing m i with
  | nil => simp
  | cons b bs ih =>
    rw [memWrite, ih, memGet_memSet]
    by_cases hk : i = k
    · subst hk; simp
    · by_cases h : i ≤ k ∧ k < i + (b :: bs).length
      · obtain ⟨d, rfl⟩ : ∃ d, k = i + 1 + d := ⟨k - (i + 1), by omega⟩
        simp only [List.length_cons] at h
        rw [if_pos (by omega), if_pos (by simp only [List.length_cons]; omega)]
        have : i + 1 + d - i = d + 1 := by omega
        simp [this]
      · simp only [List.length_cons] at h
        rw [if_neg (by omega), if_neg hk, if_neg (by simp only [List.length_cons]; omega)]

theorem memGet_memWrite_inside (m : Memory) (bs : List Byte) {k : Nat} (h : k < bs.length) :
    memGet (memWrite m 0 bs) k = some bs[k] := by simp [memGet_memWrite, h]

theorem memGet_memWrite_outside (m : Memory) (bs : List Byte) {k : Nat} (h : bs.length ≤ k) :
    memGet (memWrite m 0 bs) k = memGet m k := by
  rw [memGet_memWrite, if_neg (by omega)]

/-- Equal contents are equal data: a canonical memory is determined by what it reads as. -/
theorem memory_ext {m n : Memory} (hm : Memory.wf m) (hn : Memory.wf n) (h : ∀ k, memGet m k = memGet n k) : m = n := by
  induction m generalizing n with
  | nil =>
    cases n with
    | nil => rfl
    | cons c n => have := h c.1; obtain ⟨a, x⟩ := c; simp [memGet_cons] at this
  | cons c m ih =>
    obtain ⟨a, x⟩ := c
    cases n with
    | nil => have := h a; simp [memGet_cons] at this
    | cons d n =>
      obtain ⟨b, y⟩ := d
      rw [Memory.wf, List.pairwise_cons] at hm hn
      have hab : a = b := by
        rcases lt_trichotomy a b with hlt | heq | hgt
        · have := h a
          rw [memGet_cons, memGet_cons, if_pos rfl, if_neg (by omega),
            memGet_eq_none_of_lt fun c hc => lt_trans hlt (hn.1 c hc)] at this
          simp at this
        · exact heq
        · have := h b
          rw [memGet_cons, memGet_cons, if_neg (by omega), if_pos rfl,
            memGet_eq_none_of_lt fun c hc => lt_trans hgt (hm.1 c hc)] at this
          simp at this
      subst hab
      have hxy : x = y := by simpa [memGet_cons] using h a
      subst hxy
      rw [ih hm.2 hn.2 fun k => ?_]
      by_cases hk : a = k
      · subst hk
        rw [memGet_eq_none_of_lt fun c hc => hm.1 c hc, memGet_eq_none_of_lt fun c hc => hn.1 c hc]
      · simpa [memGet_cons, hk] using h k

/-- A byte stored below the capacity keeps a buffer inside it. -/
theorem memSet_inside {m : Memory} {n a : Nat} (h : m.Inside n) (ha : a < n) (b : Byte) :
    Memory.Inside (memSet m a b) n :=
  ⟨memSet_wf h.canonical a b, fun k hk => by
    rw [memGet_memSet_other m b (show a ≠ k by omega)]; exact h.bounded k hk⟩

/-- An output that fits keeps a buffer inside its capacity. -/
theorem memWrite_inside {m : Memory} {n : Nat} (h : m.Inside n) {bs : List Byte} (hb : bs.length ≤ n) :
    Memory.Inside (memWrite m 0 bs) n :=
  ⟨memWrite_wf h.canonical 0 bs, fun k hk => by
    rw [memGet_memWrite_outside m bs (by omega)]; exact h.bounded k hk⟩

theorem nil_inside (n : Nat) : Memory.Inside [] n := ⟨List.Pairwise.nil, fun _ _ => rfl⟩

/-- The byte at an index depends on the buffer and on the reset only. -/
theorem byteAt_congr {s t : State} {b : Buffer} (hm : s.memory b = t.memory b) (hr : s.resets = t.resets) (k : Nat) :
    s.byteAt b k = t.byteAt b k := by simp [State.byteAt, hm, hr]

@[simp] theorem byteAt_finish_ibuf (s : State) (r : Except Err Output) (k : Nat) :
    (s.finish r).byteAt .ibuf k = s.byteAt .ibuf k := byteAt_congr (by simp) (by simp) k

/-- OBUF after a command that raised nothing: its output bytes, then what was there. -/
theorem byteAt_succeed_inside (s : State) (o : Output) {k : Nat} (h : k < o.bytes.length) :
    (s.succeed o).byteAt .obuf k = o.bytes[k] := by simp [State.byteAt, memGet_memWrite_inside, h]

theorem byteAt_succeed_outside (s : State) (o : Output) {k : Nat} (h : o.bytes.length ≤ k) :
    (s.succeed o).byteAt .obuf k = s.byteAt .obuf k := by simp [State.byteAt, memGet_memWrite_outside, h]

@[simp] theorem length_memRead (s : State) (b : Buffer) (i n : Nat) : (s.memRead b i n).length = n := by
  simp [State.memRead]

@[simp] theorem getElem_memRead (s : State) (b : Buffer) (i n j : Nat) (h : j < (s.memRead b i n).length) :
    (s.memRead b i n)[j] = s.byteAt b (i + j) := by simp [State.memRead]

/-- A read depends only on the bytes it covers. -/
theorem memRead_congr {s t : State} {b : Buffer} {i n : Nat} (h : ∀ j, j < n → s.byteAt b (i + j) = t.byteAt b (i + j)) :
    s.memRead b i n = t.memRead b i n := by
  simp only [State.memRead]
  exact List.map_congr_left fun j hj => h j (List.mem_range.1 hj)

end Sys2Proof.Machine
end

