-- ==== Sys2Proof/Laws/Codec.lean ====
section
/-! SUPPORT. What the codec functions can answer: their lengths, and which error they raise. -/

namespace Sys2Proof.Machine

theorem width_bytes_pos (w : Width) : 0 < w.bytes := by cases w <;> simp [Width.bytes]

theorem width_bytes_le (w : Width) : w.bytes ≤ 6 := by cases w <;> simp [Width.bytes]

theorem fieldForm_len_le (f : FieldForm) : f.len ≤ 6 := by
  cases f with
  | int w _ _ => exact width_bytes_le w
  | spd _ => simp [FieldForm.len]

@[simp] theorem length_leBytes (U n : Nat) : (leBytes U n).length = n := by simp [leBytes]

@[simp] theorem getElem_leBytes (U n i : Nat) (h : i < (leBytes U n).length) :
    (leBytes U n)[i] = BitVec.ofNat 8 (U >>> (8 * i)) := by
  simp only [leBytes, List.getElem_map, List.getElem_range]
  apply BitVec.eq_of_toNat_eq
  simp only [BitVec.toNat_ofNat]
  rw [show (0xFF : Nat) = 2 ^ 8 - 1 from rfl, Nat.and_two_pow_sub_one_eq_mod]
  omega

@[simp] theorem length_inOrder (ord : ByteOrder) (bs : List Byte) : (inOrder ord bs).length = bs.length := by
  cases ord <;> simp [inOrder]

@[simp] theorem inOrder_inOrder (ord : ByteOrder) (bs : List Byte) : inOrder ord (inOrder ord bs) = bs := by
  cases ord <;> simp [inOrder]

/-- `int_pack` answers its bytes, or RANGE in strict mode for a value out of range. -/
theorem intPack_cases (V : Int) (w : Width) (ord : ByteOrder) (sgn : Signedness) (strict : Bool) :
    (strict = true ∧ inRange V w sgn = false ∧ intPack V w ord sgn strict = .error .range) ∨
    ((strict = true → inRange V w sgn = true) ∧
      intPack V w ord sgn strict = .ok (inOrder ord (leBytes (V % 2 ^ (8 * w.bytes)).toNat w.bytes))) := by
  unfold intPack
  cases strict <;> cases inRange V w sgn <;> simp

/-- `spdir_pack` answers two bytes, or RANGE in strict mode for a speed outside [0, 4095]. -/
theorem spdirPack_cases (S : Int) (d strict : Bool) :
    (strict = true ∧ ¬ (0 ≤ S ∧ S ≤ 4095) ∧ spdirPack S d strict = .error .range) ∨
    ((strict = true → 0 ≤ S ∧ S ≤ 4095) ∧
      spdirPack S d strict = .ok [BitVec.ofNat 8 (((S % 4096).toNat >>> 8) ||| (d.toNat <<< 7)),
        BitVec.ofNat 8 ((S % 4096).toNat &&& 0xFF)]) := by
  unfold spdirPack
  by_cases h : 0 ≤ S ∧ S ≤ 4095 <;> cases strict <;> simp [h]

/-- `field_bytes` answers `flen` bytes, or RANGE in strict mode. -/
theorem fieldBytes_cases (f : FieldForm) (V : Int) (strict : Bool) :
    (strict = true ∧ fieldBytes f V strict = .error .range) ∨
    (∃ bs, fieldBytes f V strict = .ok bs ∧ bs.length = f.len) := by
  cases f with
  | int w ord sgn =>
    rcases intPack_cases V w ord sgn strict with ⟨h, -, e⟩ | ⟨-, e⟩
    · exact .inl ⟨h, e⟩
    · exact .inr ⟨_, e, by simp [FieldForm.len]⟩
  | spd d =>
    rcases spdirPack_cases V d strict with ⟨h, -, e⟩ | ⟨-, e⟩
    · exact .inl ⟨h, e⟩
    · exact .inr ⟨_, e, rfl⟩

@[simp] theorem fieldsLen_nil : fieldsLen [] = 0 := rfl

@[simp] theorem fieldsLen_cons (p : PackedField) (fs : List PackedField) :
    fieldsLen (p :: fs) = p.1.len + fieldsLen fs := by simp [fieldsLen]

/-- The fields of a frame answer their bytes, or RANGE in strict mode. -/
theorem fieldsBytes_cases (strict : Bool) (fs : List PackedField) :
    (strict = true ∧ fieldsBytes strict fs = .error .range) ∨
    (∃ bs, fieldsBytes strict fs = .ok bs ∧ bs.length = fieldsLen fs) := by
  induction fs with
  | nil => exact .inr ⟨[], rfl, rfl⟩
  | cons p fs ih =>
    obtain ⟨f, V⟩ := p
    rcases fieldBytes_cases f V strict with ⟨h, e⟩ | ⟨bs, e, hl⟩
    · exact .inl ⟨h, by simp [fieldsBytes, e]⟩
    · rcases ih with ⟨h, e'⟩ | ⟨more, e', hl'⟩
      · exact .inl ⟨h, by simp [fieldsBytes, e, e']⟩
      · exact .inr ⟨bs ++ more, by simp [fieldsBytes, e, e'], by simp [hl, hl']⟩

@[simp] theorem length_sbEncode (xs : List Byte) : (sbEncode xs).length = 2 * xs.length := by
  induction xs with
  | nil => rfl
  | cons x xs ih => simp only [sbEncode, List.flatMap_cons, List.length_append, List.length_cons] at ih ⊢; simp; omega

theorem length_bytePairs : ∀ ys : List Byte, (bytePairs ys).length = ys.length / 2
  | [] => rfl
  | [_] => by simp [bytePairs]
  | _ :: _ :: rest => by simp only [bytePairs, List.length_cons, length_bytePairs rest]; omega

/-- `sb_decode` answers half as many bytes, or MALFORMED. -/
theorem sbDecode_cases (ys : List Byte) (hichk : Bool) :
    sbDecode ys hichk = .error .malformed ∨
    (∃ bs, sbDecode ys hichk = .ok bs ∧ bs.length = ys.length / 2 ∧ ys.length % 2 = 0) := by
  unfold sbDecode
  split
  · exact .inl rfl
  · split
    · exact .inl rfl
    · exact .inr ⟨_, rfl, by simp [length_bytePairs], by omega⟩

@[simp] theorem checksum_nil (seed : Byte) : checksum seed [] = seed := rfl

@[simp] theorem checksum_cons (seed b : Byte) (bs : List Byte) :
    checksum seed (b :: bs) = checksum (seed + b) bs := rfl

@[simp] theorem length_frameOf (s : State) (body : List Byte) :
    (s.frameOf body).length = s.addrPfx.toNat + body.length + 1 := by
  cases h : s.addrPfx
  · simp [State.frameOf, h]
  · simp [State.frameOf, h]; omega

end Sys2Proof.Machine
end

