-- ==== Sys2Proof/Laws/Exec.lean ====
section
/-! SUPPORT. What the engine's step can do: every command ends in `State.finish` of its checks and computation. -/

namespace Sys2Proof.Machine

/-- The checks and computation of a command. -/
def commandOutput : Instr → State → Except Err Output
  | .packInt1 ord sgn => packOutput (.int .w1 ord sgn)
  | .packInt2 ord sgn => packOutput (.int .w2 ord sgn)
  | .packInt3 ord sgn => packOutput (.int .w3 ord sgn)
  | .packInt4 ord sgn => packOutput (.int .w4 ord sgn)
  | .packInt6 ord sgn => packOutput (.int .w6 ord sgn)
  | .packSpd dir => packOutput (.spd dir)
  | .unpackInt1 ord sgn => unpackOutput .w1 ord sgn
  | .unpackInt2 ord sgn => unpackOutput .w2 ord sgn
  | .unpackInt3 ord sgn => unpackOutput .w3 ord sgn
  | .unpackInt4 ord sgn => unpackOutput .w4 ord sgn
  | .unpackInt6 ord sgn => unpackOutput .w6 ord sgn
  | .sbenc => sbencOutput
  | .sbdec => sbdecOutput
  | .cksum => cksumOutput
  | .build => buildOutput
  | .parse => parseOutput

theorem exec_eq_finish (i : Instr) (s : State) : exec i s = .next (s.finish (commandOutput i s)) := by
  cases i <;> rfl

@[simp] theorem exec_packInt (w : Width) (ord : ByteOrder) (sgn : Signedness) (s : State) :
    exec (.packInt w ord sgn) s = .next (s.finish (packOutput (.int w ord sgn) s)) := by
  cases w <;> rfl

@[simp] theorem exec_packSpd (dir : Bool) (s : State) :
    exec (.packSpd dir) s = .next (s.finish (packOutput (.spd dir) s)) := rfl

@[simp] theorem exec_unpackInt (w : Width) (ord : ByteOrder) (sgn : Signedness) (s : State) :
    exec (.unpackInt w ord sgn) s = .next (s.finish (unpackOutput w ord sgn s)) := by
  cases w <;> rfl

/-- The engine's step ends a command one way or the other: it never stops. -/
theorem engineStep_cases (s : State) :
    (∃ i, decode s.cw = .ok i ∧ engineStep s = .next (s.finish (commandOutput i s))) ∨
    (∃ g, decode s.cw = .error g ∧ engineStep s = .next (s.finish (.error .illegal))) := by
  unfold engineStep
  cases h : decode s.cw with
  | ok i => exact .inl ⟨i, rfl, exec_eq_finish i s⟩
  | error g => exact .inr ⟨g, rfl, rfl⟩

theorem packOutput_fits {f : FieldForm} {s : State} {o : Output} (h : packOutput f s = .ok o) : o.bytes.length ≤ 6 := by
  unfold packOutput at h
  rcases fieldBytes_cases f (sval64 s.value) s.strict with ⟨-, e⟩ | ⟨bs, e, hl⟩
  · simp [e] at h
  · simp only [e, Except.ok.injEq] at h
    subst h
    exact hl ▸ fieldForm_len_le f

theorem unpackOutput_bytes {w : Width} {ord : ByteOrder} {sgn : Signedness} {s : State} {o : Output}
    (h : unpackOutput w ord sgn s = .ok o) : o.bytes = [] := by
  unfold unpackOutput at h
  split at h
  · cases h
  · split at h
    · cases h
    · cases h; rfl

theorem sbencOutput_fits {s : State} {o : Output} (h : sbencOutput s = .ok o) : o.bytes.length ≤ s.params.bufBytes := by
  unfold sbencOutput at h
  split at h
  · cases h
  · split at h
    · cases h
    · cases h; simp; omega

theorem sbdecOutput_fits {s : State} {o : Output} (h : sbdecOutput s = .ok o) : o.bytes.length ≤ s.params.bufBytes := by
  unfold sbdecOutput at h
  split at h
  · cases h
  · rcases sbDecode_cases (s.memRead .ibuf 0 s.ilen.toNat) s.hichk with e | ⟨bs, e, hl, -⟩
    · simp [e] at h
    · simp only [e, Except.ok.injEq] at h
      subst h
      simp only [hl, length_memRead]; omega

theorem cksumOutput_bytes {s : State} {o : Output} (h : cksumOutput s = .ok o) : o.bytes = [] := by
  unfold cksumOutput at h
  split at h
  · cases h
  · cases h; rfl

theorem buildOutput_fits {s : State} {o : Output} (h : buildOutput s = .ok o) : o.bytes.length ≤ s.params.bufBytes := by
  unfold buildOutput at h
  split at h
  · cases h
  · rename_i fs _
    split at h
    · cases h
    · split at h
      · cases h
      · rename_i hL
        rcases fieldsBytes_cases s.strict fs with ⟨-, e⟩ | ⟨bs, e, hl⟩
        · simp [e] at h
        · simp only [e, Except.ok.injEq] at h
          subst h
          simp only [State.frameLen] at hL
          simp only [length_frameOf, List.length_cons]; omega

theorem parseOutput_fits {s : State} {o : Output} (h : parseOutput s = .ok o) : o.bytes.length ≤ s.params.bufBytes := by
  unfold parseOutput at h
  split at h
  · cases h
  · split at h
    · cases h
    · split at h
      · cases h
      · cases h; simp; omega

/-- Every output fits OBUF, whose capacity is at least 16 (R7). -/
theorem commandOutput_fits {i : Instr} {s : State} {o : Output} (hb : 16 ≤ s.params.bufBytes)
    (h : commandOutput i s = .ok o) : o.bytes.length ≤ s.params.bufBytes := by
  cases i with
  | packInt1 | packInt2 | packInt3 | packInt4 | packInt6 | packSpd => have := packOutput_fits h; omega
  | unpackInt1 | unpackInt2 | unpackInt3 | unpackInt4 | unpackInt6 => simp [unpackOutput_bytes h]
  | sbenc => exact sbencOutput_fits h
  | sbdec => exact sbdecOutput_fits h
  | cksum => simp [cksumOutput_bytes h]
  | build => exact buildOutput_fits h
  | parse => exact parseOutput_fits h

end Sys2Proof.Machine
end

