-- ==== Sys2Proof/Laws/PerInstr.lean ====
section
/-! SUPPORT. Per-instruction statements about the encoding (spec/opcode_table.json). -/

namespace Sys2Proof.Laws

/-- The match and mask of an instruction's row of spec/opcode_table.json. -/
def tableRow : Instr → CmdWord × CmdWord
  | .packInt1 _ _ => (0x0001, 0xE7FF)
  | .packInt2 _ _ => (0x0101, 0xE7FF)
  | .packInt3 _ _ => (0x0201, 0xE7FF)
  | .packInt4 _ _ => (0x0301, 0xE7FF)
  | .packInt6 _ _ => (0x0401, 0xE7FF)
  | .packSpd _ => (0x2001, 0xBFFF)
  | .unpackInt1 _ _ => (0x0002, 0xE7FF)
  | .unpackInt2 _ _ => (0x0102, 0xE7FF)
  | .unpackInt3 _ _ => (0x0202, 0xE7FF)
  | .unpackInt4 _ _ => (0x0302, 0xE7FF)
  | .unpackInt6 _ _ => (0x0402, 0xE7FF)
  | .sbenc => (0x0003, 0xFFFF)
  | .sbdec => (0x0004, 0xFFFF)
  | .cksum => (0x0005, 0xFFFF)
  | .build => (0x0006, 0xFFFF)
  | .parse => (0x0007, 0xFFFF)

/-- The encoded word is a word of the instruction's own table row. -/
def InTableRow.Statement (i : Instr) : Prop := encode i &&& (tableRow i).2 = (tableRow i).1

theorem InTableRow.packInt1 (ord : ByteOrder) (sgn : Signedness) : InTableRow.Statement (.packInt1 ord sgn) := by
  cases ord <;> cases sgn <;> rfl
theorem InTableRow.packInt2 (ord : ByteOrder) (sgn : Signedness) : InTableRow.Statement (.packInt2 ord sgn) := by
  cases ord <;> cases sgn <;> rfl
theorem InTableRow.packInt3 (ord : ByteOrder) (sgn : Signedness) : InTableRow.Statement (.packInt3 ord sgn) := by
  cases ord <;> cases sgn <;> rfl
theorem InTableRow.packInt4 (ord : ByteOrder) (sgn : Signedness) : InTableRow.Statement (.packInt4 ord sgn) := by
  cases ord <;> cases sgn <;> rfl
theorem InTableRow.packInt6 (ord : ByteOrder) (sgn : Signedness) : InTableRow.Statement (.packInt6 ord sgn) := by
  cases ord <;> cases sgn <;> rfl
theorem InTableRow.packSpd (dir : Bool) : InTableRow.Statement (.packSpd dir) := by cases dir <;> rfl
theorem InTableRow.unpackInt1 (ord : ByteOrder) (sgn : Signedness) : InTableRow.Statement (.unpackInt1 ord sgn) := by
  cases ord <;> cases sgn <;> rfl
theorem InTableRow.unpackInt2 (ord : ByteOrder) (sgn : Signedness) : InTableRow.Statement (.unpackInt2 ord sgn) := by
  cases ord <;> cases sgn <;> rfl
theorem InTableRow.unpackInt3 (ord : ByteOrder) (sgn : Signedness) : InTableRow.Statement (.unpackInt3 ord sgn) := by
  cases ord <;> cases sgn <;> rfl
theorem InTableRow.unpackInt4 (ord : ByteOrder) (sgn : Signedness) : InTableRow.Statement (.unpackInt4 ord sgn) := by
  cases ord <;> cases sgn <;> rfl
theorem InTableRow.unpackInt6 (ord : ByteOrder) (sgn : Signedness) : InTableRow.Statement (.unpackInt6 ord sgn) := by
  cases ord <;> cases sgn <;> rfl
theorem InTableRow.sbenc : InTableRow.Statement .sbenc := rfl
theorem InTableRow.sbdec : InTableRow.Statement .sbdec := rfl
theorem InTableRow.cksum : InTableRow.Statement .cksum := rfl
theorem InTableRow.build : InTableRow.Statement .build := rfl
theorem InTableRow.parse : InTableRow.Statement .parse := rfl

end Sys2Proof.Laws
end

