-- ==== Sys2Proof/Laws/Step.lean ====
section
/-! SUPPORT. What a host turn and a step can do, said once. -/

namespace Sys2Proof.Machine

/-- A host turn that goes on is a reset, no access at all, a read, a WAIT that stays on the list, or a write made
while BUSY = 0. -/
theorem hostTurn_cases {op : HostOp} {s t : State} (h : hostTurn op s = .next t) :
    (op = .reset ∧ t = s.blockReset) ∨ t = s ∨ (∃ v, t = s.noteRead v) ∨
    (∃ v, s.busy = true ∧ op = .wait ∧ t = (s.noteRead v).setHost (.wait :: s.host)) ∨
    (∃ tg v l, op = .write l v ∧ s.locate l = some tg ∧ s.busy = false ∧ t = s.hostWrite tg v) := by
  cases op with
  | write l v =>
    simp only [hostTurn] at h
    split at h
    · cases h; exact .inr (.inl rfl)
    · rename_i tg htg
      split at h
      · cases h
      · rename_i hb
        cases h
        exact .inr (.inr (.inr (.inr ⟨tg, v, l, rfl, htg, by simpa using hb, rfl⟩)))
  | read l =>
    simp only [hostTurn] at h
    split at h
    · cases h; exact .inr (.inl rfl)
    · split at h
      · cases h
      · cases h; exact .inr (.inr (.inl ⟨_, rfl⟩))
  | wait =>
    simp only [hostTurn] at h
    split at h
    · rename_i hb
      cases h; exact .inr (.inr (.inr (.inl ⟨_, hb, rfl, rfl⟩)))
    · cases h; exact .inr (.inr (.inl ⟨_, rfl⟩))
  | reset => cases h; exact .inl ⟨rfl, rfl⟩

/-- With BUSY = 0 a step is the host's next access. -/
theorem step_of_host {s : State} {op : HostOp} {rest : List HostOp} (hb : s.busy = false) (hh : s.host = op :: rest) :
    step s = hostTurn op (s.setHost rest) := by
  unfold step takeTurn
  rw [if_neg (by simp [hb]), hh]

/-- While the latency of a command runs, a step is the host's next access and takes one turn off it. -/
theorem step_of_busy_host {s : State} {op : HostOp} {rest : List HostOp} (hb : s.busy = true) (hw : 0 < s.wait)
    (hh : s.host = op :: rest) : step s = hostTurn op (s.elapse.setHost rest) := by
  unfold step takeTurn
  rw [if_pos hb, if_neg (by omega), hh]

/-- Once the latency has run out, a step is the engine's. -/
theorem step_of_engine {s : State} (hb : s.busy = true) (hw : s.wait = 0) : step s = engineStep s := by
  unfold step takeTurn
  rw [if_pos hb, if_pos hw]

/-- A run takes its first step and goes on from there. -/
theorem run_of_next {s t : State} (h : step s = .next t) (k : Nat) : core.run (k + 1) s = core.run k t := by
  simp only [Host.Core.run, core, h]

theorem hostTurn_write {s : State} {l : Loc} {tg : Target} (hb : s.busy = false) (hl : s.locate l = some tg) (v : Nat) :
    hostTurn (.write l v) s = .next (s.hostWrite tg v) := by simp [hostTurn, hl, hb]

theorem hostTurn_read {s : State} {l : Loc} {tg : Target} (hb : s.busy = false) (hl : s.locate l = some tg) :
    hostTurn (.read l) s = .next (s.noteRead (s.hostRead tg)) := by simp [hostTurn, hl, hb]

theorem hostWrite_reg {s : State} {n : BitVec 8} {r : Reg} (h : regAt s.nfMax n = some r) (v : Nat) :
    s.hostWrite (.reg n) v = s.writeReg r v := by simp [State.hostWrite, h]

theorem hostRead_reg {s : State} {n : BitVec 8} {r : Reg} (h : regAt s.nfMax n = some r) :
    s.hostRead (.reg n) = s.readReg r := by simp [State.hostRead, h]

theorem hostWrite_ibuf {s : State} {k : BitVec 16} (h : k.toNat < s.params.bufBytes) (v : Nat) :
    s.hostWrite (.byte .ibuf k) v = { s with ibuf := memSet s.ibuf k.toNat (BitVec.ofNat 8 v) } := if_pos h

theorem hostWrite_outside {s : State} {k : BitVec 16} (h : s.params.bufBytes ≤ k.toNat) (v : Nat) :
    s.hostWrite (.byte .ibuf k) v = s := if_neg (Nat.not_lt.2 h)

/-- A step is the engine's, a turn of latency with the host idle, idleness, or a host turn. -/
theorem step_cases {s t : State} (h : step s = .next t) :
    (s.busy = true ∧ s.wait = 0 ∧ engineStep s = .next t) ∨
    (s.busy = true ∧ 0 < s.wait ∧ s.host = [] ∧ t = s.elapse) ∨
    (s.busy = false ∧ s.host = [] ∧ t = s) ∨
    (∃ op rest, s.host = op :: rest ∧ s.busy = true ∧ 0 < s.wait ∧
      hostTurn op (s.elapse.setHost rest) = .next t) ∨
    (∃ op rest, s.host = op :: rest ∧ s.busy = false ∧ hostTurn op (s.setHost rest) = .next t) := by
  unfold step takeTurn at h
  split at h
  · rename_i hb
    split at h
    · rename_i hw; exact .inl ⟨hb, hw, h⟩
    · rename_i hw
      have hw : 0 < s.wait := Nat.pos_of_ne_zero hw
      split at h
      · rename_i hh; cases h; exact .inr (.inl ⟨hb, hw, hh, rfl⟩)
      · rename_i op rest hh; exact .inr (.inr (.inr (.inl ⟨op, rest, hh, hb, hw, h⟩)))
  · rename_i hb
    have hb : s.busy = false := by simpa using hb
    split at h
    · rename_i hh; cases h; exact .inr (.inr (.inl ⟨hb, hh, rfl⟩))
    · rename_i op rest hh; exact .inr (.inr (.inr (.inr ⟨op, rest, hh, hb, h⟩)))

/-- A host write changes one register, issues a command, stores one IBUF byte, or does nothing. -/
theorem hostWrite_cases (s : State) (tg : Target) (v : Nat) :
    s.hostWrite tg v = s ∨
    (∃ n r, tg = .reg n ∧ regAt s.nfMax n = some r ∧ s.hostWrite tg v = s.writeReg r v) ∨
    (∃ k, tg = .byte .ibuf k ∧ k.toNat < s.params.bufBytes ∧
      s.hostWrite tg v = { s with ibuf := memSet s.ibuf k.toNat (BitVec.ofNat 8 v) }) := by
  cases tg with
  | reg n =>
    cases h : regAt s.nfMax n with
    | none => exact .inl (by simp [State.hostWrite, h])
    | some r => exact .inr (.inl ⟨n, r, rfl, h, by simp [State.hostWrite, h]⟩)
  | byte b k =>
    cases b with
    | obuf => exact .inl rfl
    | ibuf =>
      by_cases h : k.toNat < s.params.bufBytes
      · exact .inr (.inr ⟨k, rfl, h, by simp [State.hostWrite, h]⟩)
      · exact .inl (by simp [State.hostWrite, h])

end Sys2Proof.Machine
end

