-- ==== Sys2Proof/Tests/Slice0.lean ====
section
/-! SUPPORT. Tests: ill-formed terms refused, words written out, one-step vectors of spec/95_test_vectors.md, and for
every statement with hypotheses a witness that meets them. Every expected result is the spec's, not the model's. -/

namespace Sys2Proof.Tests

open Sys2Proof Sys2Proof.Machine

/-! ### Small states -/

/-- The reset state with these bytes in IBUF from index 0 and ILEN their number. -/
def withInput (bs : List Byte) : State :=
  { State.reset with ibuf := memWrite [] 0 bs, ilen := BitVec.ofNat 16 bs.length }

/-- The reset state with this CTRL and VALUE. -/
def withValue (ctrl : BitVec 8) (v : Int) : State := { State.reset with ctrl := ctrl, value := BitVec.ofInt 64 v }

/-- The reset state set up for a BUILD: CTRL, ADDR, OPC, NF, and the first slots. -/
def withFields (ctrl addr opc nf : BitVec 8) (fields : List (Byte × Int)) : State :=
  { State.reset with
    ctrl := ctrl
    addr := addr
    opc := opc
    nf := nf
    slots := fields.map (fun f => ⟨f.1, BitVec.ofInt 64 f.2⟩) ++ List.replicate (8 - fields.length) ⟨0, 0⟩ }

/-- The reset state with this host list. -/
def withOps (ops : List HostOp) : State := { State.reset with host := ops }

/-- ERR, OLEN, the stored OBUF bytes and RESULT after a step. -/
def report : Host.Outcome State Fault Refusal → Option (BitVec 4 × BitVec 16 × Memory × ValueWord)
  | .next t => some (errCode t.err, t.olen, t.obuf, t.result)
  | .fault _ => none
  | .refused _ => none

/-- The value the host read, after a run. -/
def readBack : Host.Outcome State Fault Refusal → Option (BitVec 64)
  | .next t => some t.rdata
  | .fault _ => none
  | .refused _ => none

/-- The answer of a step is a refusal. -/
def refuses : Host.Outcome State Fault Refusal → Bool
  | .next _ => false
  | .fault _ => false
  | .refused _ => true

/-! ### WellFormed: each check refuses an ill-formed term -/

theorem test_wf_bufBytes_small : Params.wellFormed ⟨15, [], .be⟩ = false := by decide
theorem test_wf_bufBytes_large : Params.wellFormed ⟨65536, [], .be⟩ = false := by decide
theorem test_wf_bufBytes_bounds : Params.wellFormed ⟨16, [], .be⟩ = true ∧ Params.wellFormed ⟨65535, [], .le⟩ = true := by
  decide
theorem test_wf_nfMax : nfMaxWellFormed 2 = false ∧ nfMaxWellFormed 17 = false ∧ nfMaxWellFormed 3 = true ∧
    nfMaxWellFormed 16 = true := by decide
/-- R77: bit 7, DIR without KIND, WCODE 5, WCODE with KIND, ORD with KIND, SGN with KIND. -/
theorem test_fd_refused : fdOk 0x80 = false ∧ fdOk 0x40 = false ∧ fdOk 0x05 = false ∧ fdOk 0x21 = false ∧
    fdOk 0x28 = false ∧ fdOk 0x30 = false ∧ fdOk 0xA0 = false ∧ fdIntOk 0x20 = false ∧ fdSpdOk 0x00 = false := by decide

/-! ### Decoding: words written out bit by bit, FD (RSV DIR KIND SGN ORD WCODE), RSV, OP (R70, R75, R83) -/

theorem test_decode_packInt1 : decode 0b0000000000000001#16 = .ok (.packInt1 .le .unsigned) ∧
    decode 0b0001000000000001#16 = .ok (.packInt1 .le .signed) := by decide
theorem test_decode_packInt2 : decode 0b0000100100000001#16 = .ok (.packInt2 .be .unsigned) ∧
    decode 0b0001000100000001#16 = .ok (.packInt2 .le .signed) := by decide
theorem test_decode_packInt3 : decode 0b0000101000000001#16 = .ok (.packInt3 .be .unsigned) ∧
    decode 0b0001101000000001#16 = .ok (.packInt3 .be .signed) := by decide
theorem test_decode_packInt4 : decode 0b0000001100000001#16 = .ok (.packInt4 .le .unsigned) ∧
    decode 0b0001101100000001#16 = .ok (.packInt4 .be .signed) := by decide
/-- Section 2.1: 0x0401 is PACK int6.le.u. -/
theorem test_decode_packInt6 : decode 0b0000010000000001#16 = .ok (.packInt6 .le .unsigned) ∧
    decode 0b0000110000000001#16 = .ok (.packInt6 .be .unsigned) := by decide
/-- Section 2.1: 0x2001 and 0x6001. -/
theorem test_decode_packSpd : decode 0b0010000000000001#16 = .ok (.packSpd false) ∧
    decode 0b0110000000000001#16 = .ok (.packSpd true) := by decide
theorem test_decode_unpackInt1 : decode 0b0000000000000010#16 = .ok (.unpackInt1 .le .unsigned) ∧
    decode 0b0001000000000010#16 = .ok (.unpackInt1 .le .signed) := by decide
theorem test_decode_unpackInt2 : decode 0b0000100100000010#16 = .ok (.unpackInt2 .be .unsigned) ∧
    decode 0b0001000100000010#16 = .ok (.unpackInt2 .le .signed) := by decide
/-- Section 2.1: 0x1A02 is UNPACK int3.be.s. -/
theorem test_decode_unpackInt3 : decode 0b0001101000000010#16 = .ok (.unpackInt3 .be .signed) ∧
    decode 0b0000101000000010#16 = .ok (.unpackInt3 .be .unsigned) := by decide
theorem test_decode_unpackInt4 : decode 0b0001001100000010#16 = .ok (.unpackInt4 .le .signed) ∧
    decode 0b0000101100000010#16 = .ok (.unpackInt4 .be .unsigned) := by decide
theorem test_decode_unpackInt6 : decode 0b0001110000000010#16 = .ok (.unpackInt6 .be .signed) ∧
    decode 0b0000010000000010#16 = .ok (.unpackInt6 .le .unsigned) := by decide
theorem test_decode_sbenc : decode 0b0000000000000011#16 = .ok .sbenc := by decide
theorem test_decode_sbdec : decode 0b0000000000000100#16 = .ok .sbdec := by decide
theorem test_decode_cksum : decode 0b0000000000000101#16 = .ok .cksum := by decide
theorem test_decode_build : decode 0b0000000000000110#16 = .ok .build := by decide
theorem test_decode_parse : decode 0b0000000000000111#16 = .ok .parse := by decide
/-- Section 2.1: the ILLEGAL words, in its order. -/
theorem test_decode_illegal :
    [0x0000#16, 0x0008, 0xFFFF, 0x0013, 0x0103, 0xA001, 0x2101, 0x4001, 0x0501, 0x2002].map decode =
      [.error .reservedOp, .error .reservedOp, .error .reservedBits, .error .reservedBits, .error .descriptorNotZero,
        .error .badPackDescriptor, .error .badPackDescriptor, .error .badPackDescriptor, .error .badPackDescriptor,
        .error .badUnpackDescriptor] := by decide
theorem test_decodeTableWord : decodeTableWord 16 0x1A02 = some (.unpackInt3 .be .signed) ∧
    decodeTableWord 16 0x0006 = some .build ∧ decodeTableWord 16 0x0013 = none := by decide
/-- R83: the assembler's own spelling. -/
theorem test_asm : (Instr.packInt3 .be .signed).asm = "PACK int3.be.s" ∧ (Instr.packSpd false).asm = "PACK spd.d0" ∧
    Instr.build.asm = "BUILD" := by decide

/-! ### PACK (section 2.2) -/

/-- V10. -/
theorem test_packInt1_truncates : report (exec (.packInt1 .le .unsigned) (withValue 0x04 256)) =
    some (0, 1, [(0, 0x00)], 0) := by decide
/-- V9. -/
theorem test_packInt1_range : report (exec (.packInt1 .le .unsigned) (withValue 0x05 256)) = some (1, 0, [], 0) := by
  decide
/-- V8. -/
theorem test_packInt2_lowest : report (exec (.packInt2 .be .signed) (withValue 0x05 (-32768))) =
    some (0, 2, [(0, 0x80), (1, 0x00)], 0) := by decide
/-- V4. -/
theorem test_packInt2_negative : report (exec (.packInt2 .le .unsigned) (withValue 0x05 (-1))) =
    some (1, 0, [], 0) := by decide
/-- V1. -/
theorem test_packInt3_be : report (exec (.packInt3 .be .unsigned) (withValue 0x04 0x123456)) =
    some (0, 3, [(0, 0x12), (1, 0x34), (2, 0x56)], 0) := by decide
/-- V2. -/
theorem test_packInt3_le : report (exec (.packInt3 .le .unsigned) (withValue 0x04 0x123456)) =
    some (0, 3, [(0, 0x56), (1, 0x34), (2, 0x12)], 0) := by decide
/-- V19c. -/
theorem test_packInt4_le : report (exec (.packInt4 .le .unsigned) (withValue 0x05 0xDEADBEEF)) =
    some (0, 4, [(0, 0xEF), (1, 0xBE), (2, 0xAD), (3, 0xDE)], 0) := by decide
/-- V19b. -/
theorem test_packInt4_range : report (exec (.packInt4 .be .signed) (withValue 0x05 0x80000000)) =
    some (1, 0, [], 0) := by decide
/-- V14. -/
theorem test_packInt6_be : report (exec (.packInt6 .be .unsigned) (withValue 0x05 0x0102030405)) =
    some (0, 6, [(0, 0x00), (1, 0x01), (2, 0x02), (3, 0x03), (4, 0x04), (5, 0x05)], 0) := by decide
/-- V19f. -/
theorem test_packInt6_truncates : report (exec (.packInt6 .le .unsigned) (withValue 0x04 (-9223372036854775808))) =
    some (0, 6, [(0, 0), (1, 0), (2, 0), (3, 0), (4, 0), (5, 0)], 0) := by decide
/-- V19n. -/
theorem test_packSpd_truncates : report (exec (.packSpd true) (withValue 0x04 0x1ABC)) =
    some (0, 2, [(0, 0x8A), (1, 0xBC)], 0) := by decide
/-- V19m. -/
theorem test_packSpd_range : report (exec (.packSpd false) (withValue 0x05 (-1))) = some (1, 0, [], 0) := by decide

/-! ### UNPACK (section 2.3) -/

/-- V25. -/
theorem test_unpackInt1_signed : report (exec (.unpackInt1 .le .signed) (withInput [0x80])) =
    some (0, 0, [], 0xFFFFFFFFFFFFFF80) := by decide
/-- V29e. -/
theorem test_unpackInt1_capacity : report (exec (.unpackInt1 .le .unsigned) { withInput [] with ilen := 300 }) =
    some (5, 0, [], 0) := by decide
/-- V24. -/
theorem test_unpackInt2_le : report (exec (.unpackInt2 .le .unsigned) (withInput [0x40, 0x01])) =
    some (0, 0, [], 320) := by decide
/-- V29b. -/
theorem test_unpackInt2_last : report (exec (.unpackInt2 .be .signed)
    { withInput [0x30, 0xFF, 0xC0, 0x00, 0xF0] with offset := 3 }) = some (0, 0, [], 0xF0) := by decide
/-- V29a. -/
theorem test_unpackInt3_offset : report (exec (.unpackInt3 .be .signed)
    { withInput [0x30, 0xFF, 0xC0, 0x00, 0xF0] with offset := 1 }) = some (0, 0, [], 0xFFFFFFFFFFFFC000) := by decide
/-- V22. -/
theorem test_unpackInt3_unsigned : report (exec (.unpackInt3 .be .unsigned) (withInput [0xFF, 0xC0, 0x00])) =
    some (0, 0, [], 0xFFC000) := by decide
/-- V28b. -/
theorem test_unpackInt4_lowest : report (exec (.unpackInt4 .le .signed) (withInput [0x00, 0x00, 0x00, 0x80])) =
    some (0, 0, [], 0xFFFFFFFF80000000) := by decide
/-- V28a. -/
theorem test_unpackInt4_highest : report (exec (.unpackInt4 .be .signed) (withInput [0x7F, 0xFF, 0xFF, 0xFF])) =
    some (0, 0, [], 0x7FFFFFFF) := by decide
/-- V28c. -/
theorem test_unpackInt6_le : report (exec (.unpackInt6 .le .unsigned) (withInput [1, 2, 3, 4, 5, 6])) =
    some (0, 0, [], 0x060504030201) := by decide
/-- V27. -/
theorem test_unpackInt6_negative : report (exec (.unpackInt6 .be .signed)
    (withInput [0xFF, 0xFF, 0xFF, 0xFF, 0xFF, 0xFE])) = some (0, 0, [], 0xFFFFFFFFFFFFFFFE) := by decide

/-! ### SBENC and SBDEC (section 2.4) -/

/-- V31. -/
theorem test_sbenc_pairs : report (exec .sbenc (withInput [0xF6, 0x01, 0xC0])) =
    some (0, 6, [(0, 0x76), (1, 0x01), (2, 0x01), (3, 0x00), (4, 0x40), (5, 0x01)], 0) := by decide
/-- V43. -/
theorem test_sbenc_capacity : report (exec .sbenc { withInput [] with ilen := 129 }) = some (5, 0, [], 0) := by decide
/-- V38a: with HICHK = 0 hi is masked to its bit 0. -/
theorem test_sbdec_masks_hi : report (exec .sbdec (withInput [0x05, 0x03])) = some (0, 1, [(0, 0x85)], 0) := by decide
/-- V38b. -/
theorem test_sbdec_checks_hi : report (exec .sbdec { withInput [0x05, 0x03] with ctrl := 0x02 }) =
    some (2, 0, [], 0) := by decide

/-! ### CKSUM, BUILD and PARSE (sections 1, 2.5 to 2.7) -/

/-- V50. -/
theorem test_cksum_sum : report (exec .cksum { withInput [0xF6, 0x01, 0x40, 0x02] with addr := 1 }) =
    some (0, 0, [], 0x3A) := by decide
/-- V53. -/
theorem test_cksum_wraps : report (exec .cksum { withInput [0x01] with addr := 0xFF }) = some (0, 0, [], 0) := by decide
/-- E8: the source's absolute position seek to -0x4000. -/
theorem test_build_seek : report (exec .build
    (withFields 0x04 0x01 0xFE 3 [(0x20, 600), (0x00, 2), (0x1A, -0x4000)])) =
    some (0, 9, [(0, 0x01), (1, 0xFE), (2, 0x02), (3, 0x58), (4, 0x02), (5, 0xFF), (6, 0xC0), (7, 0x00), (8, 0x1A)],
      0x1A) := by decide
/-- V60h: ILLEGAL comes before CAPACITY. -/
theorem test_build_illegal_first : report (exec .build (withFields 0x04 0x01 0xF6 9 [(0xFF, 0)])) =
    some (4, 0, [], 0) := by decide
/-- V65. -/
theorem test_parse_position : report (exec .parse
    { withInput [0x30, 0xFF, 0xC0, 0x00, 0xF0] with addr := 1, expw := 3 }) =
    some (0, 3, [(0, 0xFF), (1, 0xC0), (2, 0x00)], 0x30) := by decide
/-- V64: the length is checked before the checksum. -/
theorem test_parse_length_first : report (exec .parse { withInput [0xF6, 0x01, 0xF9] with addr := 1, expw := 2 }) =
    some (2, 0, [], 0) := by decide

/-! ### The host's port, reset and the step (section 2.8) -/

/-- V70. -/
theorem test_host_reads_ctrl : readBack (step (withOps [hostRd .ctrl])) = some 0x04 := by decide
/-- V74. -/
theorem test_host_writes_ctrl : readBack (core.run 2 (withOps [hostWr .ctrl 0xFF, hostRd .ctrl])) = some 0x07 := by
  decide
/-- V76. -/
theorem test_host_writes_nf : readBack (core.run 2 (withOps [hostWr .nf 0x1FF, hostRd .nf])) = some 0xFF := by decide
/-- V75. -/
theorem test_host_status_is_ro : readBack (core.run 2 (withOps [hostWr .status 0x1F, hostRd .status])) = some 0 := by
  decide
/-- R62: an access through HOST_MAP. -/
theorem test_host_map : readBack (core.run 2 { withOps [.write (.mapped 0x4003) 7, hostRd .addr] with
    params := ⟨256, [(0x4003, .reg 0x03)], .be⟩ }) = some 7 := by decide
/-- V77 and R25: the word 0x0000 issued and completed leaves ERR = 4, read back as STATUS by the poll. -/
theorem test_run_illegal : readBack (core.run 3 (withOps [hostWr .cmd 0x0000, .wait])) = some 0x04 := by decide
/-- R84: RUN SBENC is WR CMD, 0x0003; WAIT, and LOAD stores its bytes and then ILEN. -/
theorem test_host_syntax : hostRun .sbenc = [.write (.direct (.reg 0x02)) 0x0003, .wait] ∧
    hostLoad [0xF6, 0x01] = [.write (.direct (.byte .ibuf 0)) 0xF6, .write (.direct (.byte .ibuf 1)) 0x01,
      .write (.direct (.reg 0x08)) 2] := by decide
/-- R85: CW is spd.d0 (0x20), CCW is spd.d1 (0x60), and the scenario's other fields are 0x00, 0x0A and 0x1A. -/
theorem test_host_naming : fdOf (speedField .cw) = 0x20 ∧ fdOf (speedField .ccw) = 0x60 ∧
    fdOf accelerationField = 0x00 ∧ fdOf relativeStepsField = 0x0A ∧ fdOf absolutePositionField = 0x1A := by decide
/-- R197: a write while BUSY = 1 is refused. -/
theorem test_busy_refused : refuses (step { withOps [hostWr .addr 1] with busy := true, wait := 1 }) = true := by decide
/-- The placed word is the first thing to run after reset. -/
theorem test_withFetchWord : report (step (State.reset.withFetchWord 16 0x0005)) = some (0, 0, [], 0) := by decide
/-- An ILLEGAL word placed there ends in the abort. -/
theorem test_withFetchWord_illegal : report (step (State.reset.withFetchWord 16 0x0013)) = some (4, 0, [], 0) := by
  decide

/-! ### Witnesses: a concrete state and operands for the hypotheses of each statement, clause by clause -/

theorem witness_EncodeOfDecode : decode 0x1A02#16 = .ok (.unpackInt3 .be .signed) := by decide

theorem witness_ReservedBitsAreIllegal :
    (State.reset.withFetchWord 16 0x0013).cw.extractLsb' 4 4 ≠ 0#4 ∧
    (State.reset.withFetchWord 16 0x0013).busy = true ∧ (State.reset.withFetchWord 16 0x0013).wait = 0 := by decide

/-- The first and last number of each kind, at the least and the greatest NF_MAX. -/
theorem witness_RegisterMap :
    regAt 3 0x00 = some .ctrl ∧ regAt 3 0x0B = some .result ∧ regAt 3 0x0C = none ∧ regAt 3 0x0F = none ∧
    regAt 3 0x10 = some (.fdesc 0) ∧ regAt 3 0x12 = some (.fdesc 2) ∧ regAt 3 0x13 = none ∧ regAt 3 0x1F = none ∧
    regAt 3 0x20 = some (.fval 0) ∧ regAt 3 0x22 = some (.fval 2) ∧ regAt 3 0x23 = none ∧ regAt 16 0x1F = some (.fdesc 15) ∧
    regAt 16 0x2F = some (.fval 15) ∧ regAt 16 0x30 = none ∧ regAt 16 0xFF = none := by decide

/-- An RW register, the masked one, and an RO one. -/
theorem witness_HostRegisterWrite :
    (withOps [hostWr .nf 0x1FF]).busy = false ∧ (withOps [hostWr .nf 0x1FF]).nfMax ≤ 16 ∧
    regExists 8 .nf ∧ Reg.nf ≠ .cmd ∧ (withOps [hostWr .nf 0x1FF]).host = hostWr .nf 0x1FF :: [] ∧
    regAccess .nf = .rw ∧ regAccess .ctrl = .rw ∧ regAccess (.fval 7) = .rw ∧ regExists 8 (.fval 7) ∧
    regAccess .status = .ro ∧ regAccess .olen = .ro :=
  ⟨rfl, by decide, trivial, by decide, rfl, rfl, rfl, rfl, show 7 < 8 by decide, rfl, rfl⟩

theorem witness_HostRegisterRead :
    (withOps [hostRd .ctrl]).busy = false ∧ (withOps [hostRd .ctrl]).nfMax ≤ 16 ∧ regExists 8 .ctrl ∧
    (withOps [hostRd .ctrl]).host = hostRd .ctrl :: [] := ⟨rfl, by decide, trivial, rfl⟩

/-- The last slot of the table, for the clauses about FDESC and FVAL. -/
theorem witness_HostRegisterRead_slot :
    (withOps [hostRd (.fdesc 7)]).busy = false ∧ (withOps [hostRd (.fdesc 7)]).nfMax ≤ 16 ∧ regExists 8 (.fdesc 7) ∧
    (withOps [hostRd (.fdesc 7)]).slots[7]? = some ⟨0, 0⟩ ∧ (withOps [hostRd (.fval 7)]).slots[7]? = some ⟨0, 0⟩ :=
  ⟨rfl, by decide, show 7 < 8 by decide, by decide, by decide⟩

/-- The ends of the reserved ranges at NF_MAX = 8. -/
theorem witness_ReservedNumbersReadZero :
    (withOps [.write (.direct (.reg 0x0C)) 1]).busy = false ∧ (withOps [.read (.direct (.reg 0x18))]).busy = false ∧
    (withOps [.read (.direct (.reg 0x18))]).nfMax = 8 ∧
    reservedNumber 8 0x0C ∧ reservedNumber 8 0x0F ∧ reservedNumber 8 0x18 ∧ reservedNumber 8 0x1F ∧
    reservedNumber 8 0x28 ∧ reservedNumber 8 0x2F ∧ reservedNumber 8 0x30 ∧ reservedNumber 8 0xFF :=
  ⟨rfl, rfl, by decide, by simp [reservedNumber], by simp [reservedNumber], by simp [reservedNumber],
    by simp [reservedNumber], by simp [reservedNumber], by simp [reservedNumber], by simp [reservedNumber],
    by simp [reservedNumber]⟩

theorem witness_ControlReservedBits : 0xFF % 8 = 0x07 % 8 ∧
    (0xFC#8).extractLsb' 0 3 = State.reset.ctrl.extractLsb' 0 3 := by decide

/-- The last index of IBUF, the first above it, and OBUF. -/
theorem witness_HostBufferWrite :
    (withOps [.write (.direct (.byte .ibuf 255)) 1]).busy = false ∧ (255#16).toNat < State.reset.params.bufBytes ∧
    (withOps [.write (.direct (.byte .ibuf 256)) 1]).busy = false ∧ State.reset.params.bufBytes ≤ (256#16).toNat ∧
    (withOps [.write (.direct (.byte .obuf 0)) 1]).busy = false := by decide

theorem witness_HostBufferRead :
    (withOps [.read (.direct (.byte .obuf 255))]).busy = false ∧
    (withOps [.read (.direct (.byte .obuf 255))]).host = .read (.direct (.byte .obuf 255)) :: [] := by decide

/-- While idle, and while a command is in flight. -/
theorem witness_MappedAccessIsTheDirectOne :
    Params.target ⟨256, [(0x4003, .reg 0x03), (0x4003, .reg 0x04)], .be⟩ 0x4003 = some (.reg 0x03) ∧
    (State.reset.busy = true → 0 < State.reset.wait) ∧
    (({ State.reset with busy := true, wait := 1 } : State).busy = true →
      0 < ({ State.reset with busy := true, wait := 1 } : State).wait) := by decide

theorem witness_CommandWriteIssues :
    (withOps [hostWr .cmd 0x0006]).busy = false ∧ (withOps [hostWr .cmd 0x0006]).host = hostWr .cmd 0x0006 :: [] ∧
    (withOps [hostRd .cmd]).busy = false ∧ (withOps [hostRd .cmd]).host = hostRd .cmd :: [] := by decide

/-- A host write of ADDR, and a reset that clears it. -/
theorem witness_OnlyTheHostWritesOperands :
    (∃ t, step (withOps [hostWr .addr 1]) = .next t ∧ t.addr ≠ (withOps [hostWr .addr 1]).addr) ∧
    (∃ t, step { withOps [.reset] with addr := 1 } = .next t ∧ t.addr ≠ 1) :=
  ⟨⟨_, rfl, by decide⟩, ⟨_, rfl, by decide⟩⟩

/-- With BUSY = 0 and with BUSY = 1. -/
theorem witness_ResetSetsEveryRegister :
    ((withOps [.reset]).busy = true → 0 < (withOps [.reset]).wait) ∧ (withOps [.reset]).host = .reset :: [] ∧
    (({ withOps [.reset] with busy := true, wait := 1 } : State).busy = true → 0 < 1) := by decide

theorem witness_IdleBlockStays : State.reset.busy = false ∧ State.reset.host = [] := by decide

/-- An output, an error, and an UNPACK. -/
theorem witness_CommandFrame :
    State.reset.params.wellFormed = true ∧ (∃ t, exec .cksum State.reset = .next t) ∧
    (∃ t, exec .parse State.reset = .next t ∧ t.err ≠ none) ∧
    (∃ t, exec (.unpackInt .w2 .le .signed) State.reset = .next t) :=
  ⟨by decide, ⟨_, rfl⟩, ⟨_, rfl, by decide⟩, ⟨_, rfl⟩⟩

theorem witness_ErrorAbortWritesOnlyTheReport :
    (State.reset.withFetchWord 16 0).busy = true ∧ (State.reset.withFetchWord 16 0).wait = 0 ∧
    ∃ t, step (State.reset.withFetchWord 16 0) = .next t ∧ t.err = some .illegal := ⟨rfl, rfl, _, rfl, by decide⟩

/-- Both clauses; and that the order decides where two errors apply: V60h (ILLEGAL, CAPACITY). -/
theorem witness_FirstErrorIsReported :
    (∃ t, exec .build (withFields 0x04 0x01 0xF6 9 [(0xFF, 0)]) = .next t ∧ t.err = some .illegal) ∧
    ErrorApplies .build (withFields 0x04 0x01 0xF6 9 [(0xFF, 0)]) .capacity ∧
    decode (State.reset.withFetchWord 16 0x0013).cw = .error .reservedBits :=
  ⟨⟨_, rfl, by decide⟩, .inr (.inl ⟨rfl, .inl (by decide)⟩), by decide⟩

/-- The order decides between MALFORMED and CHECKSUM: V64. -/
theorem witness_FirstErrorIsReported_parse :
    ErrorApplies .parse { withInput [0xF6, 0x01, 0xF9] with addr := 1, expw := 2 } .malformed ∧
    ErrorApplies .parse { withInput [0xF6, 0x01, 0xF9] with addr := 1, expw := 2 } .checksum :=
  ⟨.inr (.inl ⟨rfl, by decide⟩), .inr (.inr ⟨rfl, by decide⟩)⟩

/-- Two states that differ in what the command does not read. -/
theorem witness_OutcomeDependsOnOperandsOnly :
    State.reset.params.wellFormed = true ∧
    SameOperands .parse { withInput [0xF6, 0x01, 0xF8] with addr := 1, expw := 1 }
      { withInput [0xF6, 0x01, 0xF8] with addr := 1, expw := 1, value := 9, err := some .range } :=
  ⟨by decide, rfl, rfl, rfl, rfl, fun _ _ => rfl⟩

/-- The ends of the ranges, in strict mode, and a value out of range in truncate mode. -/
theorem witness_PackIntegerCompletes :
    ((withValue 0x05 255).strict = true → InRange (withValue 0x05 255).value.toInt (8 * Width.bytes .w1) .unsigned) ∧
    ((withValue 0x05 (-128)).strict = true →
      InRange (withValue 0x05 (-128)).value.toInt (8 * Width.bytes .w1) .signed) ∧
    ((withValue 0x04 256).strict = true → InRange (withValue 0x04 256).value.toInt (8 * Width.bytes .w1) .unsigned) :=
  ⟨fun _ => ⟨by decide, by decide⟩, fun _ => ⟨by decide, by decide⟩, fun h => absurd h (by decide)⟩

theorem witness_StrictPackRaisesRange :
    (withValue 0x05 256).strict = true ∧
    ¬ InRange (withValue 0x05 256).value.toInt (8 * Width.bytes .w1) .unsigned := ⟨by decide, fun h => absurd h.2 (by decide)⟩

theorem witness_PackSpeedField :
    (withValue 0x05 4095).strict = true ∧
    (0 ≤ (withValue 0x05 4095).value.toInt ∧ (withValue 0x05 4095).value.toInt ≤ 4095) ∧
    (withValue 0x05 4096).strict = true ∧
    ¬ (0 ≤ (withValue 0x05 4096).value.toInt ∧ (withValue 0x05 4096).value.toInt ≤ 4095) := by decide

/-- The last field of the input (V29b). -/
theorem witness_UnpackIntegerCompletes :
    ({ withInput [0x30, 0xFF, 0xC0, 0x00, 0xF0] with offset := 3 } : State).ilen.toNat ≤ 256 ∧
    ({ withInput [0x30, 0xFF, 0xC0, 0x00, 0xF0] with offset := 3 } : State).offset.toNat + Width.bytes .w2 ≤
      ({ withInput [0x30, 0xFF, 0xC0, 0x00, 0xF0] with offset := 3 } : State).ilen.toNat := by decide

/-- One past it (V29c). -/
theorem witness_UnpackPastTheEnd :
    ({ withInput [0x30, 0xFF, 0xC0, 0x00, 0xF0] with offset := 4 } : State).ilen.toNat ≤ 256 ∧
    ({ withInput [0x30, 0xFF, 0xC0, 0x00, 0xF0] with offset := 4 } : State).ilen.toNat <
      ({ withInput [0x30, 0xFF, 0xC0, 0x00, 0xF0] with offset := 4 } : State).offset.toNat + Width.bytes .w2 := by decide

theorem witness_SignednessOfPack : State.reset.strict = false ∧ InRange (-8388608) (8 * Width.bytes .w3) .signed ∧
    ¬ InRange (-8388609) (8 * Width.bytes .w3) .signed :=
  ⟨by decide, ⟨by decide, by decide⟩, fun h => absurd h.1 (by decide)⟩

/-- A value packed and then unpacked on the block: PACK int2.le.u of 320, and V24. -/
theorem witness_PackThenUnpack :
    InRange (withValue 0x05 320).value.toInt (8 * Width.bytes .w2) .unsigned ∧
    ∃ t, exec (.packInt .w2 .le .unsigned) (withValue 0x05 320) = .next t ∧
      (withInput [0x40, 0x01]).offset = 0 ∧ Width.bytes .w2 ≤ (withInput [0x40, 0x01]).ilen.toNat ∧
      (withInput [0x40, 0x01]).ilen.toNat ≤ (withInput [0x40, 0x01]).params.bufBytes ∧
      ∀ k, k < Width.bytes .w2 → (withInput [0x40, 0x01]).byteAt .ibuf k = t.byteAt .obuf k := by
  refine ⟨⟨by decide, by decide⟩, _, rfl, by decide, by decide, by decide, ?_⟩
  intro k hk
  match k, hk with
  | 0, _ => rfl
  | 1, _ => rfl

/-- The largest input that fits (V42). -/
theorem witness_SbencCompletes : State.reset.params.wellFormed = true ∧
    2 * ({ State.reset with ilen := 128 } : State).ilen.toNat ≤ State.reset.params.bufBytes := by decide

theorem witness_EncodedBytesAreSevenBit : 0 < [0xF6#8].length ∧ (0xF6#8) ∈ [0xF6#8] ∧
    State.reset.params.wellFormed = true ∧
    ∃ t, exec .sbenc (withInput [0xF6, 0x01, 0xC0]) = .next t ∧ 0 < t.olen.toNat :=
  ⟨by decide, by decide, by decide, _, rfl, by decide⟩

/-- V39b, with HICHK = 1. -/
theorem witness_SbdecCompletes :
    ({ withInput [0x85, 0x01] with ctrl := 0x02 } : State).ilen.toNat = 2 ∧
    ({ withInput [0x85, 0x01] with ctrl := 0x02 } : State).hichk = true ∧
    ∀ j, 2 * j + 1 < 2 →
      (({ withInput [0x85, 0x01] with ctrl := 0x02 } : State).byteAt .ibuf (2 * j + 1)).toNat ≤ 1 := by
  refine ⟨by decide, by decide, ?_⟩
  intro j hj
  obtain rfl : j = 0 := by omega
  decide

/-- V32 and its frame decoded again. -/
theorem witness_EncodeThenDecode :
    State.reset.params.wellFormed = true ∧ 2 * (withInput [0x55]).ilen.toNat ≤ State.reset.params.bufBytes ∧
    ∃ t, exec .sbenc (withInput [0x55]) = .next t ∧ (withInput [0x55, 0x00]).ilen = t.olen ∧
      ∀ k, k < t.olen.toNat → (withInput [0x55, 0x00]).byteAt .ibuf k = t.byteAt .obuf k := by
  refine ⟨by decide, by decide, _, rfl, by decide, ?_⟩
  intro k hk
  match k, hk with
  | 0, _ => rfl
  | 1, _ => rfl

/-- The clauses of the checksum laws, in turn. -/
theorem witness_ChecksumLaws :
    (withInput [0x01]).SameInput { withInput [0x01] with value := 1 } ∧ (∃ t, exec .cksum (withInput [0x01]) = .next t) ∧
    [0x01#8, 0x02#8].Perm [0x02#8, 0x01#8] ∧ 1 < [0x01#8, 0x02#8].length ∧ [0x01#8, 0x02#8][1] ≠ 0x03#8 :=
  ⟨⟨rfl, rfl, fun _ _ => rfl⟩, ⟨_, rfl⟩, by decide, by decide, by decide⟩

/-- All of IBUF. -/
theorem witness_CksumCompletes :
    ({ State.reset with ilen := 256 } : State).ilen.toNat ≤ ({ State.reset with ilen := 256 } : State).params.bufBytes := by
  decide

/-- E4, in strict mode. -/
theorem witness_BuildCompletes :
    let s := withFields 0x05 0x01 0xF6 2 [(0x20, 320), (0x00, 2)]
    s.params.wellFormed = true ∧ s.nf.toNat ≤ s.nfMax ∧ (∀ slot ∈ s.slots.take s.nf.toNat, fdOk slot.desc = true) ∧
    ¬ s.FrameTooLong ∧ s.strict = true ∧ ∀ slot ∈ s.slots.take s.nf.toNat, SlotInRange slot := by
  refine ⟨by decide, by decide, by decide, ?_, by decide, ?_⟩
  · unfold State.FrameTooLong; decide
  · simp [withFields, SlotInRange, InRange, fdSign, wcodeBytes]

/-- A frame without the address byte (V59) and the same with it (V58). -/
theorem witness_BuiltFrameChecks :
    State.reset.params.wellFormed = true ∧
    (∃ t, exec .build (withFields 0x00 0x01 0x30 0 []) = .next t ∧ t.err = none) ∧
    ∃ t, exec .build { withFields 0x00 0x01 0x30 0 [] with ctrl := 0x00 ^^^ 0x04 } = .next t ∧ t.err = none :=
  ⟨by decide, ⟨_, rfl, by decide⟩, _, rfl, by decide⟩

theorem witness_FieldLengths : fieldOf 0x1A = some (.int .w3 .be .signed) ∧
    fieldBytes (.int .w3 .be .signed) (-0x4000) true = .ok [0xFF, 0xC0, 0x00] ∧
    fieldOf 0x60 = some (.spd true) ∧ fieldBytes (.spd true) 4095 true = .ok [0x8F, 0xFF] := by decide

/-- V62. -/
theorem witness_ParseCompletes :
    let s : State := { withInput [0xF6, 0x01, 0xF8] with addr := 1, expw := 1 }
    s.ilen.toNat ≤ s.params.bufBytes ∧ s.ilen.toNat = 2 + s.expw.toNat ∧
    (s.addr.toNat + ((List.range (1 + s.expw.toNat)).map (fun j => (s.byteAt .ibuf j).toNat)).sum) % 256 =
      (s.byteAt .ibuf (1 + s.expw.toNat)).toNat := by decide

/-- V64 and V61. -/
theorem witness_ParseChecksLengthFirst :
    let s : State := { withInput [0xF6, 0x01, 0xF9] with addr := 1, expw := 2 }
    let t : State := { withInput [0xF6, 0x01, 0xF9] with addr := 1, expw := 1 }
    s.ilen.toNat ≤ s.params.bufBytes ∧ s.ilen.toNat ≠ 2 + s.expw.toNat ∧ t.ilen.toNat = 2 + t.expw.toNat ∧
    (t.addr.toNat + ((List.range (1 + t.expw.toNat)).map (fun j => (t.byteAt .ibuf j).toNat)).sum) % 256 ≠
      (t.byteAt .ibuf (1 + t.expw.toNat)).toNat := by decide

/-- P3: the position response, and the field that fills its field bytes. -/
theorem witness_UnpackAfterParse :
    ∃ t, exec .parse { withInput [0x30, 0xFF, 0xC0, 0x00, 0xF0] with addr := 1, expw := 3 } = .next t ∧ t.err = none ∧
      0 + Width.bytes .w3 ≤ ({ State.reset with expw := 3 } : State).expw.toNat := ⟨_, rfl, by decide, by decide⟩

/-- A word that decodes, and one that does not. -/
theorem witness_StepRunsTheDecodedCommand :
    (State.reset.withFetchWord 16 0x0006).busy = true ∧ (State.reset.withFetchWord 16 0x0006).wait = 0 ∧
    decode (State.reset.withFetchWord 16 0x0006).cw = .ok .build ∧
    decode (State.reset.withFetchWord 16 0x2002).cw = .error .badUnpackDescriptor := by decide

/-- A command in flight, and each of the two polls. -/
theorem witness_PollingWhileBusy :
    ({ withOps [.wait] with busy := true, wait := 1 } : State).busy = true ∧
    0 < ({ withOps [.wait] with busy := true, wait := 1 } : State).wait ∧
    ({ withOps [.wait] with busy := true, wait := 1 } : State).host = .wait :: [] ∧
    ({ withOps [hostRd .status] with busy := true, wait := 1 } : State).host = hostRd .status :: [] := by decide

/-- Both sides: a read of RESULT is refused, for the busy hazard; a read of STATUS is not. -/
theorem witness_RefusedExactlyOnTheBusyHazard :
    step { withOps [hostRd .result] with busy := true, wait := 1 } = .refused .busyHazard ∧
    ({ withOps [hostRd .result] with busy := true, wait := 1 } : State).locate (.direct (.reg 0x0B)) =
      some (.reg 0x0B) ∧
    refuses (step { withOps [hostRd .status] with busy := true, wait := 1 }) = false := ⟨rfl, rfl, by decide⟩

/-- With the latency run out the command completes first, and the read that follows it is no violation. -/
theorem witness_RefusedExactlyOnTheBusyHazard_due :
    refuses (core.run 2 { withOps [hostRd .result] with busy := true, wait := 0 }) = false := by decide

theorem witness_DisciplinedHostStepsOn :
    ({ withOps [hostRd .status] with busy := true, wait := 1 } : State).HostKeepsBusyRule ∧
    (withOps [hostWr .addr 1]).HostKeepsBusyRule := ⟨fun _ _ => .inr rfl, fun h => absurd h (by decide)⟩

/-- A WAIT with an access after it. -/
theorem witness_PollingEnds :
    ({ withOps [.wait, hostRd .result] with busy := true, wait := 2 } : State).busy = true ∧
    ({ withOps [.wait, hostRd .result] with busy := true, wait := 2 } : State).host = .wait :: [hostRd .result] := by
  decide

/-- STATUS polled directly and through HOST_MAP, as often as the latency needs, with an access after it. -/
theorem witness_PollingEnds_polls :
    let s : State := { withOps [hostRd .status, .read (.mapped 0x4001), hostRd .result] with
      busy := true, wait := 2, params := ⟨256, [(0x4001, .reg 0x01)], .be⟩ }
    s.busy = true ∧ s.host = [hostRd .status, .read (.mapped 0x4001)] ++ [hostRd .result] ∧
    (∀ op ∈ [hostRd .status, .read (.mapped 0x4001)], s.Polls op) ∧
    s.wait ≤ [hostRd .status, .read (.mapped 0x4001)].length := by
  refine ⟨rfl, rfl, ?_, by decide⟩
  intro op hop
  rcases List.mem_pair.1 hop with rfl | rfl
  · exact .inr ⟨_, rfl, rfl⟩
  · exact .inr ⟨_, rfl, by decide⟩

/-- The other clause: a host that makes no access at all. -/
theorem witness_PollingEnds_silent :
    ({ withOps [] with busy := true, wait := 2 } : State).busy = true ∧
    ({ withOps [] with busy := true, wait := 2 } : State).host = [] ++ [] := by decide

/-- A latency of 2, and the exhausted list that State.reset has. -/
theorem witness_CollapsedCommandIsExact :
    ({ withOps [hostWr .cmd 0x0006, .wait] with latency := [2] } : State).busy = false ∧
    ({ withOps [hostWr .cmd 0x0006, .wait] with latency := [2] } : State).host = hostWr .cmd 0x0006 :: .wait :: [] ∧
    ({ withOps [hostWr .cmd 0x0006, .wait] with latency := [2] } : State).latency.headD 0 = 2 ∧
    (withOps [hostWr .cmd 0x0006, .wait]).busy = false ∧
    (withOps [hostWr .cmd 0x0006, .wait]).host = hostWr .cmd 0x0006 :: .wait :: [] ∧
    (withOps [hostWr .cmd 0x0006, .wait]).latency = [] := by decide

/-- A state that meets the invariant and has a next state. -/
theorem witness_StepKeepsTheInvariant : State.reset.Inv ∧ ∃ t, step State.reset = .next t := by
  refine ⟨⟨by decide, by decide, by decide, nil_inside _, nil_inside _, by decide, ?_, by decide⟩, _, rfl⟩
  intro k hk
  exact absurd hk (by simp [State.reset, State.init])

theorem witness_ResetMeetsTheInvariant :
    Params.wellFormed ⟨16, [], .le⟩ = true ∧ Params.wellFormed ⟨65535, [], .le⟩ = true ∧ nfMaxWellFormed 3 = true ∧
    nfMaxWellFormed 16 = true := by decide

end Sys2Proof.Tests
end

section
/-! PROOFS. The registers (10_state.md): CTRL's reserved bits and the write to CMD. What a command reads is said once,
by `commandOutput_congr`. -/

namespace Sys2Proof.Machine

/-! ### A host access to a register -/

theorem step_of_hostWr {s : State} {r : Reg} {v : Nat} {rest : List HostOp} (hb : s.busy = false)
    (hr : regAt s.nfMax (regNumber r) = some r) (hh : s.host = hostWr r v :: rest) :
    step s = .next ((s.setHost rest).writeReg r v) :=
  calc step s = hostTurn (hostWr r v) (s.setHost rest) := step_of_host hb hh
    _ = .next ((s.setHost rest).hostWrite (.reg (regNumber r)) v) := hostTurn_write (s := s.setHost rest) hb rfl v
    _ = .next ((s.setHost rest).writeReg r v) := by
      rw [hostWrite_reg (s := s.setHost rest) hr]

theorem step_of_hostRd {s : State} {r : Reg} {rest : List HostOp} (hb : s.busy = false)
    (hr : regAt s.nfMax (regNumber r) = some r) (hh : s.host = hostRd r :: rest) :
    step s = .next ((s.setHost rest).noteRead ((s.setHost rest).readReg r)) :=
  calc step s = hostTurn (hostRd r) (s.setHost rest) := step_of_host hb hh
    _ = .next ((s.setHost rest).noteRead ((s.setHost rest).hostRead (.reg (regNumber r)))) :=
      hostTurn_read (s := s.setHost rest) hb rfl
    _ = .next ((s.setHost rest).noteRead ((s.setHost rest).readReg r)) := by
      rw [hostRead_reg (s := s.setHost rest) hr]

/-- CMD has its number at every NF_MAX (R21). -/
theorem regAt_cmd (nfMax : Nat) : regAt nfMax (regNumber .cmd) = some .cmd := rfl

/-- Settles O14: the write is the issue of R32 with the host's list advanced, and a read of CMD returns 0. -/
theorem commandWriteIssues : Obligations.CommandWriteIssues := by
  intro s v rest hb
  constructor
  · intro hh
    exact ⟨_, step_of_hostWr hb (regAt_cmd _) hh, rfl, rfl, rfl⟩
  · intro hh
    exact step_of_hostRd hb (regAt_cmd _) hh

/-! ### The three options of CTRL -/

@[simp] theorem toNat_ctrlMask (v : BitVec 8) : (ctrlMask v).toNat = v.toNat % 8 := by
  rw [ctrlMask, BitVec.toNat_and]
  exact Nat.and_two_pow_sub_one_eq_mod v.toNat 3

theorem ctrlMask_ofNat_congr {v v' : Nat} (h : v % 8 = v' % 8) :
    ctrlMask (BitVec.ofNat 8 v) = ctrlMask (BitVec.ofNat 8 v') := by
  apply BitVec.eq_of_toNat_eq
  simp only [toNat_ctrlMask, BitVec.toNat_ofNat]
  omega

theorem toNat_readReg_ctrl (s : State) : (s.readReg .ctrl).toNat = s.ctrl.toNat % 8 := by
  simp only [State.readReg, BitVec.truncate_eq_setWidth, BitVec.toNat_setWidth, toNat_ctrlMask]
  omega

theorem getLsbD_eq_of_low_bits {c d : BitVec 8} (h : c.extractLsb' 0 3 = d.extractLsb' 0 3) {j : Nat} (hj : j < 3) :
    c.getLsbD j = d.getLsbD j := by
  simpa [BitVec.getLsbD_extractLsb', hj] using congrArg (·.getLsbD j) h

/-! ### What a command reads (R79) -/

theorem State.SameInput.memRead_eq {s t : State} (h : s.SameInput t) {i n : Nat} (hin : i + n ≤ s.ilen.toNat) :
    s.memRead .ibuf i n = t.memRead .ibuf i n :=
  have ⟨_, _, hbyte⟩ := h
  memRead_congr fun j hj => hbyte (i + j) (by omega)

theorem packOutput_congr {s t : State} (f : FieldForm) (hv : s.value = t.value) (hs : s.strict = t.strict) :
    packOutput f s = packOutput f t := by
  rw [packOutput, packOutput, hv, hs]

theorem unpackOutput_congr {s t : State} (w : Width) (ord : ByteOrder) (sgn : Signedness)
    (ho : s.offset = t.offset) (h : s.SameInput t) : unpackOutput w ord sgn s = unpackOutput w ord sgn t := by
  have ⟨hb, hi, _⟩ := h
  rw [unpackOutput, unpackOutput, ← hb, ← hi, ← ho]
  by_cases hr : s.ilen.toNat < s.offset.toNat + w.bytes
  · simp only [hr, if_true]
  · rw [h.memRead_eq (by omega)]

theorem sbencOutput_congr {s t : State} (h : s.SameInput t) : sbencOutput s = sbencOutput t := by
  have ⟨hb, hi, _⟩ := h
  rw [sbencOutput, sbencOutput, ← hb, ← hi, h.memRead_eq (by omega)]

theorem sbdecOutput_congr {s t : State} (hc : s.hichk = t.hichk) (h : s.SameInput t) :
    sbdecOutput s = sbdecOutput t := by
  have ⟨hb, hi, _⟩ := h
  rw [sbdecOutput, sbdecOutput, ← hb, ← hi, ← hc, h.memRead_eq (by omega)]

theorem cksumOutput_congr {s t : State} (ha : s.addr = t.addr) (h : s.SameInput t) :
    cksumOutput s = cksumOutput t := by
  have ⟨hb, hi, _⟩ := h
  rw [cksumOutput, cksumOutput, ← hb, ← hi, ← ha, h.memRead_eq (by omega)]

theorem frameLen_congr {s t : State} (hpfx : s.addrPfx = t.addrPfx) : s.frameLen = t.frameLen := by
  funext fs
  rw [State.frameLen, State.frameLen, hpfx]

theorem frameOf_congr {s t : State} (ha : s.addr = t.addr) (hpfx : s.addrPfx = t.addrPfx) :
    s.frameOf = t.frameOf := by
  funext body
  rw [State.frameOf, State.frameOf, ha, hpfx]

theorem buildOutput_congr {s t : State} (h : SameOperands .build s t) : buildOutput s = buildOutput t := by
  obtain ⟨haddr, hopc, hnf, hslots, hstrict, hpfx, hbytes, hnfMax⟩ := h
  rw [buildOutput, buildOutput, frameLen_congr hpfx, frameOf_congr haddr hpfx, haddr, hopc, hnf, hslots, hstrict,
    hbytes, hnfMax]

/-- PARSE reads IBUF only once ILEN = 2 + EXPW, so all it reads is below ILEN. -/
theorem parseOutput_congr {s t : State} (ha : s.addr = t.addr) (he : s.expw = t.expw) (h : s.SameInput t) :
    parseOutput s = parseOutput t := by
  have ⟨hb, hi, hbyte⟩ := h
  rw [parseOutput, parseOutput, ← hb, ← hi, ← ha, ← he]
  by_cases hlen : s.ilen.toNat = 2 + s.expw.toNat
  · rw [h.memRead_eq (i := 0) (by omega), h.memRead_eq (i := 1) (by omega), hbyte 0 (by omega),
      hbyte (s.ilen.toNat - 1) (by omega)]
  · simp only [ne_eq, hlen, not_false_eq_true, if_true]

/-- A command's checks and computation depend on its operands of R79 only. -/
theorem commandOutput_congr {i : Instr} {s t : State} (h : SameOperands i s t) :
    commandOutput i s = commandOutput i t := by
  cases i with
  | packInt1 | packInt2 | packInt3 | packInt4 | packInt6 | packSpd => exact packOutput_congr _ h.1 h.2
  | unpackInt1 | unpackInt2 | unpackInt3 | unpackInt4 | unpackInt6 => exact unpackOutput_congr _ _ _ h.1 h.2
  | sbenc => exact sbencOutput_congr h
  | sbdec => exact sbdecOutput_congr h.1 h.2
  | cksum => exact cksumOutput_congr h.1 h.2
  | build => exact buildOutput_congr h
  | parse =>
    obtain ⟨haddr, hexpw, hin⟩ := h
    exact parseOutput_congr haddr hexpw hin

/-! ### CTRL bits 7:3 -/

theorem sameInput_setCtrl (s : State) (c : BitVec 8) : s.SameInput { s with ctrl := c } :=
  ⟨rfl, rfl, fun _ _ => rfl⟩

/-- Of CTRL, the operands of R79 are bits 2:0 only. -/
theorem sameOperands_setCtrl (i : Instr) (s : State) {c : BitVec 8}
    (h : c.extractLsb' 0 3 = s.ctrl.extractLsb' 0 3) : SameOperands i s { s with ctrl := c } := by
  have hin := sameInput_setCtrl s c
  have hstrict : s.strict = State.strict { s with ctrl := c } := (getLsbD_eq_of_low_bits h (by decide)).symm
  have hhichk : s.hichk = State.hichk { s with ctrl := c } := (getLsbD_eq_of_low_bits h (by decide)).symm
  have hpfx : s.addrPfx = State.addrPfx { s with ctrl := c } := (getLsbD_eq_of_low_bits h (by decide)).symm
  cases i with
  | packInt1 | packInt2 | packInt3 | packInt4 | packInt6 | packSpd => exact ⟨rfl, hstrict⟩
  | unpackInt1 | unpackInt2 | unpackInt3 | unpackInt4 | unpackInt6 => exact ⟨rfl, hin⟩
  | sbenc => exact hin
  | sbdec => exact ⟨hhichk, hin⟩
  | cksum => exact ⟨rfl, hin⟩
  | build => exact ⟨rfl, rfl, rfl, rfl, hstrict, hpfx, rfl, rfl⟩
  | parse => exact ⟨rfl, rfl, hin⟩

/-- No completion reads or writes CTRL. -/
theorem finish_setCtrl (s : State) (c : BitVec 8) (r : Except Err Output) :
    State.finish { s with ctrl := c } r = { s.finish r with ctrl := c } := by
  cases r <;> rfl

/-- Settles O10: writes and reads of CTRL go through `ctrlMask`, and a command's operands hold only bits 2:0 of it. -/
theorem controlReservedBits : Obligations.ControlReservedBits := by
  refine ⟨fun s v v' h => ?_, fun s => ?_, fun i s c h => ⟨_, exec_eq_finish i s, ?_⟩⟩
  · rw [State.writeReg_ctrl, State.writeReg_ctrl, ctrlMask_ofNat_congr h]
  · rw [toNat_readReg_ctrl]
    exact Nat.mod_lt _ (by decide)
  · rw [exec_eq_finish, ← commandOutput_congr (sameOperands_setCtrl i s h), finish_setCtrl]

end Sys2Proof.Machine
end

section
/-! PROOFS. The encoding (30_encoding.md): a word whose reserved bits are set. -/

namespace Sys2Proof.Machine

/-- The reserved bits are checked before OP is looked at (R72). -/
theorem decode_of_reservedBits {w : CmdWord} (h : w.extractLsb' 4 4 ≠ 0#4) : decode w = .error .reservedBits := by
  have hrsv : cwRsv w ≠ 0 := h
  rw [decode, if_pos hrsv]

/-- The engine's error abort is R162 written out. -/
theorem errorAbort_eq_aborted (s : State) (e : Err) : s.errorAbort e = s.aborted e := rfl

/-- A word that does not decode completes in the abort ILLEGAL (R193). -/
theorem engineStep_of_decode_error {s : State} {g : IllegalWord} (h : decode s.cw = .error g) :
    engineStep s = .next (s.aborted .illegal) := by
  rw [engineStep, h, errorAbort_eq_aborted]

/-- Settles O4: the step is the engine's, and the word in flight does not decode. -/
theorem reservedBitsAreIllegal : Obligations.ReservedBitsAreIllegal := by
  intro s hrsv hb hw
  calc step s = engineStep s := step_of_engine hb hw
    _ = .next (s.aborted .illegal) := engineStep_of_decode_error (decode_of_reservedBits hrsv)

end Sys2Proof.Machine
end

section
/-! PROOFS. The integer codec (40_integer_codec.md). Two facts carry it: what UNPACK returns is in the field's range and
congruent to the field's number, and a range holds at most one value of a residue class. -/

namespace Sys2Proof.Machine

/-! ### The number a byte list holds (R90, R91) -/

theorem leBytes_succ (U n : Nat) : leBytes U (n + 1) = BitVec.ofNat 8 U :: leBytes (U / 256) n := by
  refine List.ext_getElem (by simp) fun i hi _ => ?_
  cases i with
  | zero => simp
  | succ i =>
    have hshift : U >>> (8 * (i + 1)) = (U / 256) >>> (8 * i) := by
      rw [Nat.mul_succ, Nat.add_comm, Nat.shiftRight_add, Nat.shiftRight_eq_div_pow U 8]
    rw [List.getElem_cons_succ, getElem_leBytes, getElem_leBytes, hshift]

/-- The bytes of a number hold the number reduced to their width. -/
theorem leNat_leBytes (U n : Nat) : leNat (leBytes U n) = U % 256 ^ n := by
  induction n generalizing U with
  | zero => simp [leBytes, leNat, Nat.mod_one]
  | succ n ih =>
    rw [leBytes_succ, leNat, ih, pow_succ', Nat.mod_mul, BitVec.toNat_ofNat]

theorem leNat_lt (bs : List Byte) : leNat bs < 256 ^ bs.length := by
  induction bs with
  | nil => simp [leNat]
  | cons b bs ih =>
    have hb := b.isLt
    rw [leNat, List.length_cons, pow_succ]
    omega

/-- The modulus of a field, counted in bits and in bytes. -/
theorem two_pow_bits (n : Nat) : 2 ^ (8 * n) = 256 ^ n := pow_mul 2 8 n

theorem leNat_inOrder_lt {bs : List Byte} {w : Width} (ord : ByteOrder) (h : bs.length = w.bytes) :
    (leNat (inOrder ord bs) : Int) < 2 ^ (8 * w.bytes) := by
  have hlt := leNat_lt (inOrder ord bs)
  rw [length_inOrder, h, ← two_pow_bits] at hlt
  exact_mod_cast hlt

/-! ### The range of a field (R92) -/

theorem inRange_iff (V : Int) (w : Width) (sgn : Signedness) :
    inRange V w sgn = true ↔ InRange V (8 * w.bytes) sgn := by
  cases sgn <;> exact decide_eq_true_iff

theorem two_pow_eq_two_mul_pred {bits : Nat} (h : 0 < bits) : (2 : Int) ^ bits = 2 * 2 ^ (bits - 1) :=
  (mul_pow_sub_one (Nat.ne_of_gt h) 2).symm

theorem width_bits_pos (w : Width) : 0 < 8 * w.bytes := Nat.mul_pos (by decide) (width_bytes_pos w)

/-- A range holds at most one value of each residue class. -/
theorem InRange.eq_of_emod_eq {V V' : Int} {bits : Nat} {sgn : Signedness} (hpos : 0 < bits)
    (h : InRange V bits sgn) (h' : InRange V' bits sgn) (hmod : V % 2 ^ bits = V' % 2 ^ bits) : V = V' := by
  have hclose : |V - V'| < 2 ^ bits := by
    have htwo := two_pow_eq_two_mul_pred hpos
    rw [abs_lt]
    cases sgn with
    | unsigned =>
      obtain ⟨hlo, hhi⟩ := h
      obtain ⟨hlo', hhi'⟩ := h'
      omega
    | signed =>
      obtain ⟨hlo, hhi⟩ := h
      obtain ⟨hlo', hhi'⟩ := h'
      omega
  exact sub_eq_zero.1 (Int.eq_zero_of_abs_lt_dvd (Int.ModEq.dvd hmod.symm) hclose)

/-- What `int_unpack` returns is in the range of its width and sign. -/
theorem inRange_intUnpack {bs : List Byte} {w : Width} (ord : ByteOrder) (sgn : Signedness)
    (h : bs.length = w.bytes) : InRange (intUnpack bs w ord sgn) (8 * w.bytes) sgn := by
  have hlt := leNat_inOrder_lt ord h
  cases sgn with
  | unsigned => exact ⟨Int.natCast_nonneg _, hlt⟩
  | signed =>
    have htwo := two_pow_eq_two_mul_pred (width_bits_pos w)
    have hcast : ((2 ^ (8 * w.bytes - 1) : Nat) : Int) = 2 ^ (8 * w.bytes - 1) := by norm_cast
    simp only [intUnpack, InRange]
    split
    · omega
    · omega

/-- What `int_unpack` returns is congruent to the number its bytes hold. -/
theorem intUnpack_emod {bs : List Byte} {w : Width} (ord : ByteOrder) (sgn : Signedness)
    (h : bs.length = w.bytes) : intUnpack bs w ord sgn % 2 ^ (8 * w.bytes) = leNat (inOrder ord bs) := by
  have hred : (leNat (inOrder ord bs) : Int) % 2 ^ (8 * w.bytes) = leNat (inOrder ord bs) :=
    Int.emod_eq_of_lt (Int.natCast_nonneg _) (leNat_inOrder_lt ord h)
  cases sgn with
  | unsigned => exact hred
  | signed =>
    simp only [intUnpack]
    split
    · rw [Int.sub_emod_right, hred]
    · exact hred

/-! ### The bytes of a value (R90, R94, R95) -/

/-- The bytes of a value's low bits in a field's order: what `int_pack` answers when it raises nothing. -/
def fieldValueBytes (V : Int) (w : Width) (ord : ByteOrder) : List Byte :=
  inOrder ord (leBytes (V % 2 ^ (8 * w.bytes)).toNat w.bytes)

@[simp] theorem length_fieldValueBytes (V : Int) (w : Width) (ord : ByteOrder) :
    (fieldValueBytes V w ord).length = w.bytes := by simp [fieldValueBytes]

/-- A value and its residue have the same bytes. -/
theorem fieldValueBytes_emod (V : Int) (w : Width) (ord : ByteOrder) :
    fieldValueBytes (V % 2 ^ (8 * w.bytes)) w ord = fieldValueBytes V w ord := by
  rw [fieldValueBytes, fieldValueBytes, Int.emod_emod]

theorem intPack_truncate (V : Int) (w : Width) (ord : ByteOrder) (sgn : Signedness) :
    intPack V w ord sgn false = .ok (fieldValueBytes V w ord) := rfl

theorem intPack_of_inRange {V : Int} {w : Width} {sgn : Signedness} (ord : ByteOrder) (strict : Bool)
    (h : InRange V (8 * w.bytes) sgn) : intPack V w ord sgn strict = .ok (fieldValueBytes V w ord) := by
  obtain ⟨-, hout, -⟩ | ⟨-, hok⟩ := intPack_cases V w ord sgn strict
  · simp [(inRange_iff V w sgn).2 h] at hout
  · exact hok

theorem intPack_strict_of_not_inRange {V : Int} {w : Width} {sgn : Signedness} (ord : ByteOrder)
    (h : ¬ InRange V (8 * w.bytes) sgn) : intPack V w ord sgn true = .error .range := by
  obtain ⟨-, -, herr⟩ | ⟨hin, -⟩ := intPack_cases V w ord sgn true
  · exact herr
  · exact absurd ((inRange_iff V w sgn).1 (hin rfl)) h

/-- The bytes of a value hold its residue. -/
theorem leNat_inOrder_fieldValueBytes (V : Int) (w : Width) (ord : ByteOrder) :
    (leNat (inOrder ord (fieldValueBytes V w ord)) : Int) = V % 2 ^ (8 * w.bytes) := by
  have hpos : (0 : Int) < 2 ^ (8 * w.bytes) := by positivity
  have hnn : 0 ≤ V % 2 ^ (8 * w.bytes) := Int.emod_nonneg V hpos.ne'
  rw [fieldValueBytes, inOrder_inOrder, leNat_leBytes, ← two_pow_bits]
  push_cast
  rw [Int.toNat_of_nonneg hnn, Int.emod_emod]

/-- R96: both sides are in range, and they agree modulo the field's width. -/
theorem intUnpack_fieldValueBytes {V : Int} {w : Width} {sgn : Signedness} (ord : ByteOrder)
    (h : InRange V (8 * w.bytes) sgn) : intUnpack (fieldValueBytes V w ord) w ord sgn = V :=
  have hlen := length_fieldValueBytes V w ord
  (inRange_intUnpack ord sgn hlen).eq_of_emod_eq (width_bits_pos w) h <| by
    rw [intUnpack_emod ord sgn hlen, leNat_inOrder_fieldValueBytes]

/-! ### PACK and UNPACK (R93, R97, R98) -/

/-- In truncate mode the completion of a PACK does not see SGN. -/
theorem packOutput_truncate {s : State} (w : Width) (ord : ByteOrder) (sgn : Signedness) (h : s.strict = false) :
    packOutput (.int w ord sgn) s = .ok ⟨fieldValueBytes s.value.toInt w ord, 0⟩ := by
  simp only [packOutput, fieldBytes, sval64, h, intPack_truncate]

/-- A PACK of a value in range answers the value's bytes in both modes. -/
theorem packOutput_of_inRange {s : State} {w : Width} {sgn : Signedness} (ord : ByteOrder)
    (h : InRange s.value.toInt (8 * w.bytes) sgn) :
    packOutput (.int w ord sgn) s = .ok ⟨fieldValueBytes s.value.toInt w ord, 0⟩ := by
  simp only [packOutput, fieldBytes, sval64, intPack_of_inRange ord s.strict h]

theorem unpackOutput_past_end {s : State} {w : Width} (ord : ByteOrder) (sgn : Signedness)
    (hcap : s.ilen.toNat ≤ s.params.bufBytes) (hend : s.ilen.toNat < s.offset.toNat + w.bytes) :
    unpackOutput w ord sgn s = .error .range := by
  rw [unpackOutput, if_neg (Nat.not_lt.2 hcap), if_pos hend]

theorem unpackOutput_within {s : State} {w : Width} (ord : ByteOrder) (sgn : Signedness)
    (hcap : s.ilen.toNat ≤ s.params.bufBytes) (hend : s.offset.toNat + w.bytes ≤ s.ilen.toNat) :
    unpackOutput w ord sgn s =
      .ok ⟨[], BitVec.ofInt 64 (intUnpack (s.memRead .ibuf s.offset.toNat w.bytes) w ord sgn)⟩ := by
  rw [unpackOutput, if_neg (Nat.not_lt.2 hcap), if_neg (Nat.not_lt.2 hend)]

theorem memRead_eq_of_byteAt {s : State} {b : Buffer} {i n : Nat} {bs : List Byte} (hlen : bs.length = n)
    (h : ∀ k (hk : k < bs.length), s.byteAt b (i + k) = bs[k]) : s.memRead b i n = bs :=
  List.ext_getElem ((length_memRead s b i n).trans hlen.symm) fun k _ hk => by rw [getElem_memRead, h k hk]

/-- UNPACK over the bytes of a value in range, at OFFSET 0, answers the value. -/
theorem unpackOutput_of_fieldValueBytes {u : State} {V : Int} {w : Width} {ord : ByteOrder} {sgn : Signedness}
    (hin : InRange V (8 * w.bytes) sgn) (hoff : u.offset = 0) (hlen : w.bytes ≤ u.ilen.toNat)
    (hcap : u.ilen.toNat ≤ u.params.bufBytes)
    (hbytes : ∀ k (hk : k < (fieldValueBytes V w ord).length), u.byteAt .ibuf k = (fieldValueBytes V w ord)[k]) :
    unpackOutput w ord sgn u = .ok ⟨[], BitVec.ofInt 64 V⟩ := by
  have hzero : u.offset.toNat = 0 := by simp [hoff]
  have hread : u.memRead .ibuf 0 w.bytes = fieldValueBytes V w ord :=
    memRead_eq_of_byteAt (length_fieldValueBytes V w ord) fun k hk => by rw [Nat.zero_add, hbytes k hk]
  rw [unpackOutput_within ord sgn hcap (by omega), hzero, hread, intUnpack_fieldValueBytes ord hin]

/-! ### The obligations -/

/-- Settles O27: the capacity check passes and the check of R98 fails. -/
theorem unpackPastTheEnd : Obligations.UnpackPastTheEnd := by
  intro s w ord sgn hcap hend
  rw [exec_unpackInt, unpackOutput_past_end ord sgn hcap hend, State.finish_error, errorAbort_eq_aborted]

/-- Settles O28: a value in range is what its own bytes unpack to, and `int_unpack` never leaves the range. -/
theorem rangeIsWhatUnpackReturns : Obligations.RangeIsWhatUnpackReturns := by
  intro V w ord sgn
  refine ⟨⟨fun h => ?_, ?_⟩, fun herr hin => ?_, intPack_strict_of_not_inRange ord⟩
  · exact ⟨_, length_fieldValueBytes V w ord, intUnpack_fieldValueBytes ord h⟩
  · rintro ⟨bs, hlen, rfl⟩
    exact inRange_intUnpack ord sgn hlen
  · rw [intPack_of_inRange ord true hin] at herr
    cases herr

/-- Settles O29: the bytes of a value do not depend on SGN, which selects the strict range only. -/
theorem signednessOfPack : Obligations.SignednessOfPack := by
  refine ⟨fun s w ord h => ?_, fun V w ord sgn h => ?_, fun V w ord sgn => intPack_strict_of_not_inRange ord⟩
  · rw [exec_packInt, exec_packInt, packOutput_truncate w ord .signed h, packOutput_truncate w ord .unsigned h]
  · rw [intPack_of_inRange ord true h]
    exact ⟨(intPack_truncate V w ord .unsigned).symm, (intPack_truncate V w ord .signed).symm⟩

/-- Settles O30: the reduced value is in the unsigned range and has the same bytes. -/
theorem truncationLaw : Obligations.TruncationLaw := by
  intro V w ord sgn
  have hpos : (0 : Int) < 2 ^ (8 * w.bytes) := by positivity
  have hin : InRange (V % 2 ^ (8 * w.bytes)) (8 * w.bytes) .unsigned :=
    ⟨Int.emod_nonneg V hpos.ne', Int.emod_lt_of_pos V hpos⟩
  refine ⟨?_, _, intPack_truncate V w ord sgn⟩
  rw [intPack_truncate, intPack_of_inRange ord true hin, fieldValueBytes_emod]

/-- Settles O31: UNPACK reads the bytes PACK stored, and a value in range comes back (`intUnpack_fieldValueBytes`). -/
theorem packThenUnpack : Obligations.PackThenUnpack := by
  refine ⟨fun V w ord sgn strict h => ?_, fun s t u w ord sgn hin hpack hoff hlen hcap hcopy => ?_⟩
  · exact ⟨_, intPack_of_inRange ord strict h, intUnpack_fieldValueBytes ord h⟩
  · rw [exec_packInt, packOutput_of_inRange ord hin, State.finish_ok, Host.Outcome.next.injEq] at hpack
    have hbytes : ∀ k (hk : k < (fieldValueBytes s.value.toInt w ord).length),
        u.byteAt .ibuf k = (fieldValueBytes s.value.toInt w ord)[k] := fun k hk => by
      rw [hcopy k (length_fieldValueBytes .. ▸ hk), ← hpack, byteAt_succeed_inside s _ hk]
    have hout := unpackOutput_of_fieldValueBytes hin hoff hlen hcap hbytes
    rw [exec_unpackInt, hout, BitVec.ofInt_toInt]
    exact ⟨_, rfl, rfl, rfl⟩

end Sys2Proof.Machine
end

section
/-! PROOFS. The 7-bit codec (41_sevenbit_codec.md). Two facts carry it: decoding undoes encoding, and the encoder's
range is the set of frames that R115 describes. -/

namespace Sys2Proof.Machine

/-! ### One byte and its pair (R110, R111) -/

/-- The even-indexed byte the encoder emits for `p` (R110). -/
def sbLow (p : Byte) : Byte := p &&& 0x7F#8

/-- The odd-indexed byte the encoder emits for `p` (R110). -/
def sbHigh (p : Byte) : Byte := (p &&& 0x80#8) >>> (7 : Nat)

/-- The byte the decoder makes of a pair (R111). -/
def sbJoin (lo hi : Byte) : Byte := lo ||| ((hi &&& 0x01#8) <<< (7 : Nat))

theorem toNat_sbLow (p : Byte) : (sbLow p).toNat = p.toNat % 128 := by
  rw [sbLow, BitVec.toNat_and]
  exact Nat.and_two_pow_sub_one_eq_mod p.toNat 7

theorem toNat_sbHigh (p : Byte) : (sbHigh p).toNat = p.toNat / 128 := by
  have hp := p.isLt
  have hbit : p.toNat / 128 &&& 1 = p.toNat / 128 % 2 := Nat.and_one_is_mod _
  rw [sbHigh, BitVec.toNat_ushiftRight, BitVec.toNat_and, Nat.shiftRight_and_distrib, Nat.shiftRight_eq_div_pow]
  exact hbit.trans (Nat.mod_eq_of_lt (by omega))

/-- With a 7-bit low element the two parts of a pair do not overlap, and OR is addition. -/
theorem toNat_sbJoin {lo : Byte} (hlo : lo.toNat ≤ 0x7F) (hi : Byte) :
    (sbJoin lo hi).toNat = lo.toNat + 128 * (hi.toNat % 2) := by
  have hbit : (hi &&& 0x01#8).toNat = hi.toNat % 2 := by
    rw [BitVec.toNat_and]
    exact Nat.and_one_is_mod _
  have hshift : ((hi &&& 0x01#8) <<< (7 : Nat)).toNat = 2 ^ 7 * (hi.toNat % 2) := by
    rw [BitVec.toNat_shiftLeft, hbit, Nat.shiftLeft_eq]
    omega
  rw [sbJoin, BitVec.toNat_or, hshift, Nat.or_comm, ← Nat.two_pow_add_eq_or_of_lt (by omega)]
  omega

theorem toNat_sbLow_le (p : Byte) : (sbLow p).toNat ≤ 0x7F := by
  rw [toNat_sbLow]
  omega

theorem toNat_sbHigh_le (p : Byte) : (sbHigh p).toNat ≤ 1 := by
  have hp := p.isLt
  rw [toNat_sbHigh]
  omega

theorem sbHigh_eq_zero_or_one (p : Byte) : sbHigh p = 0#8 ∨ sbHigh p = 1#8 := by
  have hle := toNat_sbHigh_le p
  bv_omega

/-- The pair of a byte is joined to the byte. -/
theorem sbJoin_sbLow_sbHigh (p : Byte) : sbJoin (sbLow p) (sbHigh p) = p := by
  have hp := p.isLt
  apply BitVec.eq_of_toNat_eq
  rw [toNat_sbJoin (toNat_sbLow_le p), toNat_sbLow, toNat_sbHigh]
  omega

theorem sbLow_sbJoin {lo hi : Byte} (hlo : lo.toNat ≤ 0x7F) : sbLow (sbJoin lo hi) = lo := by
  apply BitVec.eq_of_toNat_eq
  rw [toNat_sbLow, toNat_sbJoin hlo]
  omega

theorem sbHigh_sbJoin {lo hi : Byte} (hlo : lo.toNat ≤ 0x7F) (hhi : hi.toNat ≤ 1) :
    sbHigh (sbJoin lo hi) = hi := by
  apply BitVec.eq_of_toNat_eq
  rw [toNat_sbHigh, toNat_sbJoin hlo]
  omega

/-! ### Byte lists (R110, R111, R112) -/

@[simp] theorem sbEncode_nil : sbEncode [] = [] := rfl

@[simp] theorem sbEncode_cons (p : Byte) (xs : List Byte) :
    sbEncode (p :: xs) = sbLow p :: sbHigh p :: sbEncode xs := rfl

theorem getElem?_sbEncode {xs : List Byte} {j : Nat} (h : j < xs.length) :
    (sbEncode xs)[2 * j]? = some (sbLow xs[j]) ∧ (sbEncode xs)[2 * j + 1]? = some (sbHigh xs[j]) := by
  induction xs generalizing j with
  | nil => exact absurd h (Nat.not_lt_zero j)
  | cons p xs ih =>
    cases j with
    | zero => exact ⟨rfl, rfl⟩
    | succ j => exact ih (Nat.lt_of_succ_lt_succ h)

theorem toNat_le_of_mem_sbEncode {xs : List Byte} {y : Byte} (h : y ∈ sbEncode xs) : y.toNat ≤ 0x7F := by
  induction xs with
  | nil => cases h
  | cons p xs ih =>
    rw [sbEncode_cons, List.mem_cons, List.mem_cons] at h
    obtain rfl | rfl | hrest := h
    · exact toNat_sbLow_le p
    · exact (toNat_sbHigh_le p).trans (by decide)
    · exact ih hrest

theorem bytePairs_sbEncode (xs : List Byte) :
    bytePairs (sbEncode xs) = xs.map fun p => (sbLow p, sbHigh p) := by
  induction xs with
  | nil => rfl
  | cons p xs ih => rw [sbEncode_cons, bytePairs, ih, List.map_cons]

/-- The decoder accepts a list of pairs whose high elements are 0 or 1, whatever HICHK is. -/
theorem sbDecode_of_high_le_one {ys : List Byte} (hichk : Bool) (heven : ys.length % 2 = 0)
    (hhigh : ∀ q ∈ bytePairs ys, q.2.toNat ≤ 1) :
    sbDecode ys hichk = .ok ((bytePairs ys).map fun q => sbJoin q.1 q.2) := by
  have hodd : ¬ ys.length % 2 = 1 := by omega
  have hany : (bytePairs ys).any (fun q => decide (1 < q.2.toNat)) = false :=
    List.any_eq_false.2 fun q hq => by simpa using hhigh q hq
  rw [sbDecode, if_neg hodd, hany, Bool.and_false, if_neg Bool.false_ne_true]
  rfl

/-- R114: each pair of the frame is the pair of one byte, and is joined to it. -/
theorem sbDecode_sbEncode (xs : List Byte) (hichk : Bool) : sbDecode (sbEncode xs) hichk = .ok xs := by
  have hhigh : ∀ q ∈ bytePairs (sbEncode xs), q.2.toNat ≤ 1 := by
    rw [bytePairs_sbEncode, List.forall_mem_map]
    exact fun p _ => toNat_sbHigh_le p
  rw [sbDecode_of_high_le_one hichk (by simp) hhigh, bytePairs_sbEncode, List.map_map]
  exact congrArg Except.ok (List.map_id'' sbJoin_sbLow_sbHigh xs)

/-! ### The encoder's range (R115) -/

/-- The frames of R115: of even length, 7-bit elements at even places, 0 or 1 at odd places. -/
def SevenBitFrame (ys : List Byte) : Prop :=
  ys.length % 2 = 0 ∧
    ∀ j (hj : j < ys.length), (j % 2 = 0 → ys[j].toNat ≤ 0x7F) ∧ (j % 2 = 1 → ys[j].toNat ≤ 1)

theorem sevenBitFrame_nil : SevenBitFrame [] := ⟨rfl, fun j hj => absurd hj (Nat.not_lt_zero j)⟩

theorem sevenBitFrame_cons_cons (lo hi : Byte) (ys : List Byte) :
    SevenBitFrame (lo :: hi :: ys) ↔ lo.toNat ≤ 0x7F ∧ hi.toNat ≤ 1 ∧ SevenBitFrame ys := by
  have hlen : (lo :: hi :: ys).length % 2 = ys.length % 2 := Nat.add_mod_right _ 2
  constructor
  · rintro ⟨heven, hbyte⟩
    have hlo := (hbyte 0 (by simp)).1 rfl
    have hhi := (hbyte 1 (by simp)).2 rfl
    refine ⟨hlo, hhi, hlen ▸ heven, fun j hj => ?_⟩
    have hj2 := hbyte (j + 2) (Nat.add_lt_add_right hj 2)
    rwa [Nat.add_mod_right] at hj2
  · rintro ⟨hlo, hhi, heven, hbyte⟩
    refine ⟨hlen ▸ heven, fun j hj => ?_⟩
    match j with
    | 0 => exact ⟨fun _ => hlo, fun h => absurd h (by decide)⟩
    | 1 => exact ⟨fun h => absurd h (by decide), fun _ => hhi⟩
    | j + 2 =>
      rw [Nat.add_mod_right]
      exact hbyte j (Nat.lt_of_add_lt_add_right hj)

theorem sevenBitFrame_sbEncode (xs : List Byte) : SevenBitFrame (sbEncode xs) := by
  induction xs with
  | nil => exact sevenBitFrame_nil
  | cons p xs ih => exact (sevenBitFrame_cons_cons ..).2 ⟨toNat_sbLow_le p, toNat_sbHigh_le p, ih⟩

/-- A frame of R115 encodes the bytes its pairs are joined to. -/
theorem SevenBitFrame.exists_sbEncode_eq {ys : List Byte} (h : SevenBitFrame ys) : ∃ xs, sbEncode xs = ys := by
  induction ys using bytePairs.induct with
  | case1 lo hi rest ih =>
    obtain ⟨hlo, hhi, hrest⟩ := (sevenBitFrame_cons_cons ..).1 h
    obtain ⟨xs, rfl⟩ := ih hrest
    exact ⟨sbJoin lo hi :: xs, by rw [sbEncode_cons, sbLow_sbJoin hlo, sbHigh_sbJoin hlo hhi]⟩
  | case2 ys hshort =>
    match ys with
    | [] => exact ⟨[], rfl⟩
    | [_] => exact absurd h.1 (by simp)
    | lo :: hi :: rest => exact (hshort lo hi rest rfl).elim

/-! ### SBENC and SBDEC (R113, R116) -/

@[simp] theorem exec_sbenc (s : State) : exec .sbenc s = .next (s.finish (sbencOutput s)) := rfl

@[simp] theorem exec_sbdec (s : State) : exec .sbdec s = .next (s.finish (sbdecOutput s)) := rfl

theorem sbencOutput_of_fits {s : State} (h : 2 * s.ilen.toNat ≤ s.params.bufBytes) :
    sbencOutput s = .ok ⟨sbEncode (s.memRead .ibuf 0 s.ilen.toNat), 0⟩ := by
  rw [sbencOutput, if_neg (by omega), if_neg (by omega)]

theorem sbencOutput_of_too_long {s : State} (h : s.params.bufBytes < 2 * s.ilen.toNat) :
    sbencOutput s = .error .capacity := by
  rw [sbencOutput, if_pos h, ite_self]

/-- SBDEC over an encoded input answers the bytes that were encoded, in both modes. -/
theorem sbdecOutput_of_sbEncode {u : State} {xs : List Byte} (hcap : u.ilen.toNat ≤ u.params.bufBytes)
    (hread : u.memRead .ibuf 0 u.ilen.toNat = sbEncode xs) : sbdecOutput u = .ok ⟨xs, 0⟩ := by
  rw [sbdecOutput, if_neg (Nat.not_lt.2 hcap), hread, sbDecode_sbEncode]

/-- OLEN counts at most the bytes delivered. -/
theorem toNat_olen_succeed_le (s : State) (o : Output) : (s.succeed o).olen.toNat ≤ o.bytes.length := by
  rw [State.succeed_olen, BitVec.toNat_ofNat]
  exact Nat.mod_le ..

/-- OLEN counts the bytes delivered when they fit a buffer of an allowed capacity (R7). -/
theorem toNat_olen_succeed {s : State} {o : Output} (hwf : s.params.wellFormed = true)
    (hfit : o.bytes.length ≤ s.params.bufBytes) : (s.succeed o).olen.toNat = o.bytes.length := by
  have ⟨_, hmax⟩ := of_decide_eq_true hwf
  rw [State.succeed_olen, BitVec.toNat_ofNat]
  exact Nat.mod_eq_of_lt (by omega)

/-! ### The obligations -/

/-- Settles O34: every emitted byte is one of a byte's pair, and an SBENC that fails leaves no valid output byte. -/
theorem encodedBytesAreSevenBit : Obligations.EncodedBytesAreSevenBit := by
  refine ⟨fun xs j h => ?_, fun xs => ⟨length_sbEncode xs, fun y => toNat_le_of_mem_sbEncode⟩,
    fun s t _ hexec k hk => ?_⟩
  · obtain ⟨hlow, hhigh⟩ := getElem?_sbEncode h
    rw [hlow, hhigh]
    exact ⟨rfl, (sbHigh_eq_zero_or_one xs[j]).imp (congrArg some) (congrArg some)⟩
  · rw [exec_sbenc, Host.Outcome.next.injEq] at hexec
    subst hexec
    obtain hfit | hlong := le_or_gt (2 * s.ilen.toNat) s.params.bufBytes
    · rw [sbencOutput_of_fits hfit, State.finish_ok] at hk ⊢
      rw [byteAt_succeed_inside s _ (hk.trans_le (toNat_olen_succeed_le ..))]
      exact toNat_le_of_mem_sbEncode (List.getElem_mem _)
    · rw [sbencOutput_of_too_long hlong] at hk
      exact absurd hk (Nat.not_lt_zero k)

/-- Settles O36: SBDEC reads the frame SBENC stored, and decoding undoes encoding (`sbDecode_sbEncode`). -/
theorem encodeThenDecode : Obligations.EncodeThenDecode := by
  refine ⟨sbDecode_sbEncode, fun s t u hwf hfit hexec hbuf hilen hcopy => ?_⟩
  rw [exec_sbenc, sbencOutput_of_fits hfit, State.finish_ok, Host.Outcome.next.injEq] at hexec
  subst hexec
  have holen := toNat_olen_succeed (o := ⟨sbEncode (s.memRead .ibuf 0 s.ilen.toNat), 0⟩) hwf (by simpa using hfit)
  have hread : u.memRead .ibuf 0 u.ilen.toNat = sbEncode (s.memRead .ibuf 0 s.ilen.toNat) :=
    memRead_eq_of_byteAt (hilen ▸ holen.symm) fun k hk => by
      rw [Nat.zero_add, hcopy k (holen ▸ hk), byteAt_succeed_inside s _ hk]
  have hcap : u.ilen.toNat ≤ u.params.bufBytes := by
    rw [hilen, hbuf, holen, length_sbEncode, length_memRead]
    exact hfit
  rw [exec_sbdec, sbdecOutput_of_sbEncode hcap hread]
  refine ⟨_, rfl, rfl, by simp, fun k hk => ?_⟩
  rw [State.finish_ok, byteAt_succeed_inside u _ (by simpa using hk), getElem_memRead, Nat.zero_add]

/-- Settles O37: both sides say that the frame is in the encoder's range, since decoding undoes encoding. -/
theorem decodeThenEncode : Obligations.DecodeThenEncode := by
  intro ys hichk
  constructor
  · rintro ⟨xs, -, rfl⟩
    exact sevenBitFrame_sbEncode xs
  · intro hframe
    obtain ⟨xs, rfl⟩ := SevenBitFrame.exists_sbEncode_eq hframe
    exact ⟨xs, sbDecode_sbEncode xs hichk, rfl⟩

end Sys2Proof.Machine
end

section
/-! PROOFS. The bus frame codec (42_bus_frame_codec.md). One fact carries the checksum: it is the seed plus the sum of
the bytes, in the additive group of bytes. -/

namespace Sys2Proof.Machine

/-! ### The checksum (R130, R133) -/

theorem byteSum_cons (b : Byte) (bs : List Byte) : byteSum (b :: bs) = b.toNat + byteSum bs := List.sum_cons

/-- The integer sum of the bytes a read returns. -/
theorem byteSum_memRead_zero (s : State) (b : Buffer) (n : Nat) :
    byteSum (s.memRead b 0 n) = ((List.range n).map fun j => (s.byteAt b j).toNat).sum := by
  simp only [byteSum, State.memRead, List.map_map, Function.comp_def, Nat.zero_add]

/-- R130: the running sum mod 256 is the sum mod 256. -/
theorem toNat_checksum (seed : Byte) (bs : List Byte) :
    (checksum seed bs).toNat = (seed.toNat + byteSum bs) % 256 := by
  induction bs generalizing seed with
  | nil => exact (Nat.mod_eq_of_lt seed.isLt).symm
  | cons b bs ih =>
    rw [checksum_cons, ih, BitVec.toNat_add, byteSum_cons]
    omega

/-- The checksum in the additive group of bytes. -/
theorem checksum_eq_add_sum (seed : Byte) (bs : List Byte) : checksum seed bs = seed + bs.sum := by
  induction bs generalizing seed with
  | nil => exact (add_zero seed).symm
  | cons b bs ih => rw [checksum_cons, ih, List.sum_cons, add_assoc]

theorem checksum_perm (seed : Byte) {bs cs : List Byte} (h : bs.Perm cs) : checksum seed bs = checksum seed cs := by
  rw [checksum_eq_add_sum, checksum_eq_add_sum, h.sum_eq]

theorem checksum_zero_cons (seed : Byte) (bs : List Byte) : checksum 0 (seed :: bs) = checksum seed bs := by
  rw [checksum_cons, zero_add]

theorem checksum_append_singleton (seed b : Byte) (bs : List Byte) :
    checksum seed (bs ++ [b]) = checksum seed bs + b := List.foldl_append

/-- Replacing a byte moves the checksum by the difference of the two bytes. -/
theorem checksum_set (seed b : Byte) {bs : List Byte} {j : Nat} (h : j < bs.length) :
    checksum seed (bs.set j b) = checksum seed bs + (-bs[j] + b) := by
  rw [checksum_eq_add_sum, checksum_eq_add_sum, List.sum_set', dif_pos h, add_assoc]

theorem checksum_set_ne (seed : Byte) {b : Byte} {bs : List Byte} {j : Nat} (h : j < bs.length) (hne : bs[j] ≠ b) :
    checksum seed (bs.set j b) ≠ checksum seed bs := by
  rw [checksum_set seed b h, Ne, add_eq_left, neg_add_eq_zero]
  exact hne

/-- Settles O38 (`toNat_checksum`). -/
theorem checksumIsTheSum : Obligations.ChecksumIsTheSum := toNat_checksum

/-- Settles O39: the block's CKSUM depends on its operands only, and the other laws are those of a sum of bytes. -/
theorem checksumLaws : Obligations.ChecksumLaws := by
  refine ⟨fun s s' t t' haddr hin hexec hexec' => ?_, fun seed _ _ => checksum_perm seed,
    fun seed bs => (checksum_zero_cons seed bs).symm, checksum_append_singleton,
    fun seed _ _ _ h => checksum_set_ne seed h⟩
  rw [exec_eq_finish, Host.Outcome.next.injEq] at hexec hexec'
  have hout : commandOutput .cksum s = commandOutput .cksum s' := cksumOutput_congr haddr hin
  rw [← hexec, ← hexec', hout]
  cases commandOutput .cksum s' <;> rfl

/-! ### The order of PARSE's checks (R150, R151) -/

@[simp] theorem exec_parse (s : State) : exec .parse s = .next (s.finish (parseOutput s)) := rfl

theorem parseOutput_of_wrong_length {s : State} (hcap : s.ilen.toNat ≤ s.params.bufBytes)
    (hlen : s.ilen.toNat ≠ 2 + s.expw.toNat) : parseOutput s = .error .malformed := by
  rw [parseOutput, if_neg (Nat.not_lt.2 hcap), if_pos hlen]

theorem parseOutput_of_wrong_checksum {s : State} (hcap : s.ilen.toNat ≤ s.params.bufBytes)
    (hlen : s.ilen.toNat = 2 + s.expw.toNat)
    (hsum : checksum s.addr (s.memRead .ibuf 0 (1 + s.expw.toNat)) ≠ s.byteAt .ibuf (1 + s.expw.toNat)) :
    parseOutput s = .error .checksum := by
  have hlast : s.ilen.toNat - 1 = 1 + s.expw.toNat := by omega
  rw [parseOutput, if_neg (Nat.not_lt.2 hcap), if_neg (not_not.2 hlen), hlast, if_pos hsum]

/-- Settles O45: the capacity check passes, and the next check that fails names the error. -/
theorem parseChecksLengthFirst : Obligations.ParseChecksLengthFirst := by
  refine fun s hcap => ⟨fun hlen => ?_, fun hlen hsum => ?_⟩
  · rw [exec_parse, parseOutput_of_wrong_length hcap hlen, State.finish_error, errorAbort_eq_aborted]
  · have hne : checksum s.addr (s.memRead .ibuf 0 (1 + s.expw.toNat)) ≠ s.byteAt .ibuf (1 + s.expw.toNat) :=
      fun heq => hsum (by rw [← byteSum_memRead_zero, ← toNat_checksum, heq])
    rw [exec_parse, parseOutput_of_wrong_checksum hcap hlen hne, State.finish_error, errorAbort_eq_aborted]

/-! ### What a BUILD that raises nothing stores (R140) -/

/-- A command that ends with ERR = OK delivered its output. -/
theorem exec_next_of_err_none {i : Instr} {s t : State} (h : exec i s = .next t) (herr : t.err = none) :
    ∃ o, commandOutput i s = .ok o ∧ t = s.succeed o := by
  rw [exec_eq_finish, Host.Outcome.next.injEq] at h
  subst h
  cases hout : commandOutput i s with
  | ok o => exact ⟨o, rfl, rfl⟩
  | error e => simp [hout] at herr

/-- The body of the frame a BUILD emits: the opcode, then the bytes of the fields. -/
def State.HasBody (s : State) (body : List Byte) : Prop :=
  ∃ fs bs, packedFields s.usedSlots = some fs ∧ fieldsBytes s.strict fs = .ok bs ∧ body = s.opc :: bs

theorem State.HasBody.unique {s : State} {body body' : List Byte} (h : s.HasBody body) (h' : s.HasBody body') :
    body = body' := by
  obtain ⟨fs, bs, hfs, hbs, rfl⟩ := h
  obtain ⟨fs', bs', hfs', hbs', rfl⟩ := h'
  obtain rfl : fs = fs' := Option.some.inj (hfs.symm.trans hfs')
  obtain rfl : bs = bs' := Except.ok.inj (hbs.symm.trans hbs')
  rfl

/-- Of CTRL, the body depends on STRICT only. -/
theorem State.HasBody.of_setCtrl {s : State} {c : BitVec 8} {body : List Byte} (hc : c.getLsbD 0 = s.ctrl.getLsbD 0)
    (h : State.HasBody { s with ctrl := c } body) : s.HasBody body := by
  obtain ⟨fs, bs, hfs, hbs, rfl⟩ := h
  have hstrict : State.strict { s with ctrl := c } = s.strict := hc
  exact ⟨fs, bs, hfs, hstrict ▸ hbs, rfl⟩

theorem buildOutput_ok {s : State} {o : Output} (h : buildOutput s = .ok o) :
    ∃ body, s.HasBody body ∧ o = ⟨s.frameOf body, (checksum s.addr body).zeroExtend 64⟩ := by
  unfold buildOutput at h
  split at h
  · cases h
  · rename_i fs hfs
    split at h
    · cases h
    · split at h
      · cases h
      · split at h
        · cases h
        · rename_i bs hbs
          cases h
          exact ⟨s.opc :: bs, ⟨fs, bs, hfs, hbs, rfl⟩, rfl⟩

/-- The bytes of a frame before its checksum (R141). -/
def State.frameHead (s : State) (body : List Byte) : List Byte := (if s.addrPfx then [s.addr] else []) ++ body

theorem frameOf_eq_frameHead_append (s : State) (body : List Byte) :
    s.frameOf body = s.frameHead body ++ [checksum s.addr body] := rfl

/-- The address byte sums to what the seed ADDR contributes when it is not sent. -/
theorem checksum_frameHead (s : State) (body : List Byte) :
    checksum (if s.addrPfx then 0 else s.addr) (s.frameHead body) = checksum s.addr body := by
  cases hpfx : s.addrPfx
  · rw [State.frameHead, hpfx]
    rfl
  · rw [State.frameHead, hpfx]
    exact checksum_zero_cons s.addr body

/-- Read back after an output that ends in `c`: its last byte, and the bytes before it. -/
theorem obuf_succeed_append_singleton (s : State) (bs : List Byte) (c : Byte) (r : ValueWord) :
    (s.succeed ⟨bs ++ [c], r⟩).byteAt .obuf bs.length = c ∧
    (s.succeed ⟨bs ++ [c], r⟩).memRead .obuf 0 bs.length = bs := by
  constructor
  · rw [byteAt_succeed_inside s _ (by simp), List.getElem_concat_length rfl]
  · refine memRead_eq_of_byteAt rfl fun k hk => ?_
    rw [Nat.zero_add, byteAt_succeed_inside s _ (hk.trans (by simp)), List.getElem_append_left hk]

theorem exec_build_of_err_none {s t : State} (hwf : s.params.wellFormed = true) (h : exec .build s = .next t)
    (herr : t.err = none) :
    ∃ body, s.HasBody body ∧ t.olen.toNat = (s.frameHead body).length + 1 ∧
      t.byteAt .obuf (s.frameHead body).length = checksum s.addr body ∧
      t.memRead .obuf 0 (s.frameHead body).length = s.frameHead body ∧
      t.result = (checksum s.addr body).zeroExtend 64 := by
  obtain ⟨o, hout, rfl⟩ := exec_next_of_err_none h herr
  have holen := toNat_olen_succeed hwf (buildOutput_fits hout)
  obtain ⟨body, hbody, rfl⟩ := buildOutput_ok hout
  have ⟨hlast, hread⟩ :=
    obuf_succeed_append_singleton s (s.frameHead body) (checksum s.addr body) ((checksum s.addr body).zeroExtend 64)
  refine ⟨body, hbody, ?_, hlast, hread, rfl⟩
  rw [holen, frameOf_eq_frameHead_append, List.length_append, List.length_singleton]

/-- Settles O42: the last byte is the checksum of ADDR and the body, and the body does not depend on ADDRPFX. -/
theorem builtFrameChecks : Obligations.BuiltFrameChecks := by
  intro s t hwf hexec herr
  obtain ⟨body, hbody, holen, hlast, hread, hresult⟩ := exec_build_of_err_none hwf hexec herr
  rw [holen, Nat.add_sub_cancel, hlast, hread]
  refine ⟨Nat.succ_pos _, (checksum_frameHead s body).symm, hresult, fun t' hexec' herr' => ?_⟩
  obtain ⟨body', hbody', holen', hlast', -, -⟩ :=
    exec_build_of_err_none (s := { s with ctrl := s.ctrl ^^^ 0x04 }) hwf hexec' herr'
  have hbit : (s.ctrl ^^^ 0x04).getLsbD 0 = s.ctrl.getLsbD 0 := by simp
  rw [holen', Nat.add_sub_cancel, hlast', (hbody'.of_setCtrl hbit).unique hbody]

end Sys2Proof.Machine
end

section
/-! PROOFS. The errors (60_exceptions.md). One notion carries the order of R163: an answer reports the first of the
causes that apply. A check placed before an answer that reports its causes keeps that notion, as long as the error of
the check comes no later in the order. -/

namespace Sys2Proof.Machine

/-! ### The error abort (R162) -/

/-- A completion reports an error when the checks and computation of its command raised it. -/
theorem err_finish_eq_some {s : State} {r : Except Err Output} {e : Err} (h : (s.finish r).err = some e) :
    r = .error e := by
  cases r with
  | ok o => cases h
  | error e' => exact congrArg Except.error (Option.some.inj h)

/-- Settles O20: a step of the engine finishes its command, and a finish that reports an error is the abort. -/
theorem errorAbortWritesOnlyTheReport : Obligations.ErrorAbortWritesOnlyTheReport := by
  intro s t e hb hw hstep herr
  have hfinish : ∃ r, t = s.finish r := by
    rw [step_of_engine hb hw] at hstep
    obtain ⟨i, -, hend⟩ | ⟨g, -, hend⟩ := engineStep_cases s
    · exact ⟨_, Host.Outcome.next.inj (hstep.symm.trans hend)⟩
    · exact ⟨_, Host.Outcome.next.inj (hstep.symm.trans hend)⟩
  obtain ⟨r, rfl⟩ := hfinish
  rw [err_finish_eq_some herr, State.finish_error]
  rfl

/-! ### The first of several causes (R163) -/

/-- The errors in the order of R163. -/
def errOrder : List Err := [.illegal, .capacity, .malformed, .range, .checksum]

theorem getElem?_errOrder (e : Err) : errOrder[errRank e - 1]? = some e := by cases e <;> rfl

theorem errRank_injective : Function.Injective errRank := fun e e' h =>
  Option.some.inj (by rw [← getElem?_errOrder e, h, getElem?_errOrder e'])

/-- `r` ends in the first of the errors whose cause `P` applies, and in none when none applies. -/
def ReportsFirst (P : Err → Prop) : Except Err Output → Prop
  | .ok _ => ∀ e, ¬ P e
  | .error e => P e ∧ ∀ e', P e' → errRank e ≤ errRank e'

theorem ReportsFirst.congr {P Q : Err → Prop} {r : Except Err Output} (h : ReportsFirst P r) (hPQ : ∀ e, P e ↔ Q e) :
    ReportsFirst Q r := by
  rwa [← funext fun e => propext (hPQ e)]

/-- STATUS.ERR after a completion that reports the first cause. -/
theorem ReportsFirst.err_finish {P : Err → Prop} {r : Except Err Output} (h : ReportsFirst P r) (s : State) :
    (∀ e, (s.finish r).err = some e ↔ P e ∧ ∀ e', P e' → errRank e ≤ errRank e') ∧
      ((s.finish r).err = none ↔ ∀ e, ¬ P e) := by
  cases r with
  | ok o =>
    refine ⟨fun e => ⟨fun herr => ?_, fun hP => absurd hP.1 (h e)⟩, fun _ => h, fun _ => rfl⟩
    cases herr
  | error e₀ =>
    obtain ⟨hP₀, hmin₀⟩ := h
    refine ⟨fun e => ⟨fun herr => ?_, fun ⟨hP, hmin⟩ => ?_⟩, fun herr => ?_, fun hnone => absurd hP₀ (hnone e₀)⟩
    · obtain rfl : e₀ = e := Option.some.inj herr
      exact ⟨hP₀, hmin₀⟩
    · exact congrArg some (errRank_injective (le_antisymm (hmin₀ e hP) (hmin e₀ hP₀)))
    · cases herr

/-- A check before an answer that reports the first of the causes `P`, none of them earlier than the check's error. -/
theorem reportsFirst_ite {c : Prop} [Decidable c] {e : Err} {P : Err → Prop} {r : Except Err Output}
    (hle : ∀ e', P e' → errRank e ≤ errRank e') (h : ReportsFirst P r) :
    ReportsFirst (fun e' => (e' = e ∧ c) ∨ P e') (if c then .error e else r) := by
  by_cases hc : c
  · rw [if_pos hc]
    refine ⟨.inl ⟨rfl, hc⟩, ?_⟩
    rintro e' (⟨rfl, -⟩ | hP)
    · exact le_rfl
    · exact hle e' hP
  · rw [if_neg hc]
    exact h.congr fun e' => ⟨.inr, fun hor => hor.resolve_left fun hcheck => hc hcheck.2⟩

/-- `r` raises `e` when `c` holds, and answers otherwise. -/
def RaisesIff {α : Type} (r : Except Err α) (e : Err) (c : Prop) : Prop :=
  (c ∧ r = .error e) ∨ (¬ c ∧ ∃ a, r = .ok a)

theorem raisesIff_ite {α : Type} (c : Prop) [Decidable c] (e : Err) (a : α) :
    RaisesIff (if c then .error e else .ok a) e c := by
  by_cases hc : c
  · exact .inl ⟨hc, if_pos hc⟩
  · exact .inr ⟨hc, a, if_neg hc⟩

/-- An answer with one cause reports it. -/
theorem RaisesIff.reportsFirst {r : Except Err Output} {e : Err} {c : Prop} (h : RaisesIff r e c) :
    ReportsFirst (fun e' => e' = e ∧ c) r := by
  obtain ⟨hc, rfl⟩ | ⟨hc, o, rfl⟩ := h
  · exact ⟨⟨rfl, hc⟩, fun e' he' => he'.1 ▸ le_rfl⟩
  · exact fun e' he' => hc he'.2

/-! ### The causes of the integer commands (R92, R93, R97, R98, R131) -/

/-- The value is in the strict-mode range of the field (R92, R131). -/
def FieldAdmits : FieldForm → Int → Prop
  | .int w _ sgn, V => InRange V (8 * w.bytes) sgn
  | .spd _, V => 0 ≤ V ∧ V ≤ 4095

theorem fieldBytes_raisesIff (f : FieldForm) (V : Int) (strict : Bool) :
    RaisesIff (fieldBytes f V strict) .range (strict = true ∧ ¬ FieldAdmits f V) := by
  cases f with
  | int w ord sgn =>
    rw [FieldAdmits, ← inRange_iff]
    obtain ⟨hstrict, hout, herr⟩ | ⟨hin, hok⟩ := intPack_cases V w ord sgn strict
    · exact .inl ⟨⟨hstrict, by rw [hout]; exact Bool.false_ne_true⟩, herr⟩
    · exact .inr ⟨fun ⟨hstrict, hout⟩ => hout (hin hstrict), _, hok⟩
  | spd d =>
    obtain ⟨hstrict, hout, herr⟩ | ⟨hin, hok⟩ := spdirPack_cases V d strict
    · exact .inl ⟨⟨hstrict, hout⟩, herr⟩
    · exact .inr ⟨fun ⟨hstrict, hout⟩ => hout (hin hstrict), _, hok⟩

theorem packOutput_reportsFirst (f : FieldForm) (s : State) :
    ReportsFirst (fun e => e = .range ∧ s.strict = true ∧ ¬ FieldAdmits f s.value.toInt) (packOutput f s) := by
  refine RaisesIff.reportsFirst ?_
  unfold packOutput sval64
  obtain ⟨hc, herr⟩ | ⟨hc, bs, hok⟩ := fieldBytes_raisesIff f s.value.toInt s.strict
  · exact .inl ⟨hc, by rw [herr]⟩
  · exact .inr ⟨hc, ⟨bs, 0⟩, by rw [hok]⟩

theorem unpackOutput_reportsFirst (w : Width) (ord : ByteOrder) (sgn : Signedness) (s : State) :
    ReportsFirst (ErrorApplies.UnpackError w.bytes s) (unpackOutput w ord sgn s) := by
  refine reportsFirst_ite ?_ (raisesIff_ite ..).reportsFirst
  rintro e ⟨rfl, -⟩
  decide

/-! ### The causes of SBENC and SBDEC (R113, R116) -/

theorem sbencOutput_reportsFirst (s : State) : ReportsFirst (ErrorApplies .sbenc s) (sbencOutput s) := by
  refine RaisesIff.reportsFirst ?_
  obtain hfit | hlong := le_or_gt (2 * s.ilen.toNat) s.params.bufBytes
  · exact .inr ⟨by omega, _, sbencOutput_of_fits hfit⟩
  · exact .inl ⟨.inr hlong, sbencOutput_of_too_long hlong⟩

/-- The high elements of a list's pairs are its elements at odd places. -/
theorem bytePairs_any_iff (p : Byte → Bool) (ys : List Byte) :
    (bytePairs ys).any (fun q => p q.2) = true ↔ ∃ j, ∃ h : 2 * j + 1 < ys.length, p ys[2 * j + 1] = true := by
  induction ys using bytePairs.induct with
  | case1 lo hi rest ih =>
    rw [bytePairs, List.any_cons, Bool.or_eq_true, ih]
    constructor
    · rintro (hhi | ⟨j, hj, hp⟩)
      · exact ⟨0, by simp, hhi⟩
      · exact ⟨j + 1, Nat.add_lt_add_right hj 2, hp⟩
    · rintro ⟨j, hj, hp⟩
      cases j with
      | zero => exact .inl hp
      | succ j =>
        have hj' : 2 * j + 1 < rest.length := by simp only [List.length_cons] at hj; omega
        exact .inr ⟨j, hj', hp⟩
  | case2 ys hshort =>
    match ys with
    | [] => simp [bytePairs]
    | [_] => simp [bytePairs]
    | lo :: hi :: rest => exact (hshort lo hi rest rfl).elim

theorem sbDecode_raisesIff (ys : List Byte) (hichk : Bool) :
    RaisesIff (sbDecode ys hichk) .malformed
      (ys.length % 2 = 1 ∨ (hichk = true ∧ ∃ j, ∃ h : 2 * j + 1 < ys.length, 1 < ys[2 * j + 1].toNat)) := by
  have hany := bytePairs_any_iff (fun b => decide (1 < b.toNat)) ys
  simp only [decide_eq_true_eq] at hany
  rw [← hany, ← Bool.and_eq_true, sbDecode, ← ite_or]
  exact raisesIff_ite ..

theorem sbdecOutput_reportsFirst (s : State) : ReportsFirst (ErrorApplies .sbdec s) (sbdecOutput s) := by
  refine reportsFirst_ite ?_ (RaisesIff.reportsFirst ?_)
  · rintro e ⟨rfl, -⟩
    decide
  · have hdecode := sbDecode_raisesIff (s.memRead .ibuf 0 s.ilen.toNat) s.hichk
    simp only [length_memRead, getElem_memRead, Nat.zero_add, exists_prop] at hdecode
    obtain ⟨hc, herr⟩ | ⟨hc, bs, hok⟩ := hdecode
    · exact .inl ⟨hc, by rw [herr]⟩
    · exact .inr ⟨hc, ⟨bs, 0⟩, by rw [hok]⟩

/-! ### The causes of CKSUM and PARSE (R135, R150) -/

theorem cksumOutput_reportsFirst (s : State) : ReportsFirst (ErrorApplies .cksum s) (cksumOutput s) :=
  (raisesIff_ite ..).reportsFirst

/-- A checksum differs from a byte exactly when the integer sum does modulo 256. -/
theorem checksum_ne_iff (seed b : Byte) (bs : List Byte) :
    checksum seed bs ≠ b ↔ (seed.toNat + byteSum bs) % 256 ≠ b.toNat := by
  rw [← toNat_checksum, Ne, Ne, BitVec.toNat_inj]

theorem parseOutput_reportsFirst (s : State) : ReportsFirst (ErrorApplies .parse s) (parseOutput s) := by
  refine reportsFirst_ite ?_ (reportsFirst_ite ?_ (RaisesIff.reportsFirst ?_))
  · rintro e (⟨rfl, -⟩ | ⟨rfl, -⟩)
    · decide
    · decide
  · rintro e ⟨rfl, -⟩
    decide
  · rw [← checksum_ne_iff]
    exact raisesIff_ite ..

/-! ### The causes of BUILD (R77, R78, R140) -/

/-- The widths of the codes of R76, in bytes. -/
theorem width_of_le {fd : Byte} (h : (fdWcode fd).toNat ≤ 4) :
    ∃ w, width (fdWcode fd) = some w ∧ w.bytes = wcodeBytes fd := by
  have hcode : (fdWcode fd).toNat = (fd.extractLsb' 0 3).toNat := rfl
  rw [width, wcodeBytes, ← hcode]
  generalize (fdWcode fd).toNat = n at h
  match n, h with
  | 0, _ => exact ⟨.w1, rfl, rfl⟩
  | 1, _ => exact ⟨.w2, rfl, rfl⟩
  | 2, _ => exact ⟨.w3, rfl, rfl⟩
  | 3, _ => exact ⟨.w4, rfl, rfl⟩
  | 4, _ => exact ⟨.w6, rfl, rfl⟩

/-- A descriptor is invalid, or an integer field, or the speed+direction field; bit 5 tells the valid ones apart. -/
theorem fieldOf_cases (fd : Byte) :
    (fdOk fd = false ∧ fieldOf fd = none) ∨
    (fdOk fd = true ∧ fd.getLsbD 5 = false ∧
      ∃ w, w.bytes = wcodeBytes fd ∧ fieldOf fd = some (.int w (fdOrder fd) (fdSign fd))) ∨
    (fdOk fd = true ∧ fd.getLsbD 5 = true ∧ fieldOf fd = some (.spd (fd.getLsbD 6))) := by
  unfold fieldOf fdOk
  cases hint : fdIntOk fd with
  | true =>
    obtain ⟨hbits, hcode⟩ := Bool.and_eq_true_iff.1 hint
    obtain ⟨-, hbit⟩ := Bool.and_eq_true_iff.1 hbits
    obtain ⟨w, hw, hbytes⟩ := width_of_le (of_decide_eq_true hcode)
    exact .inr (.inl ⟨rfl, by simpa using hbit, w, hbytes, by simp [hw]⟩)
  | false =>
    cases hspd : fdSpdOk fd with
    | true =>
      obtain ⟨hbits, -⟩ := Bool.and_eq_true_iff.1 hspd
      obtain ⟨-, hbit⟩ := Bool.and_eq_true_iff.1 hbits
      exact .inr (.inr ⟨rfl, hbit, by simp⟩)
    | false => exact .inl ⟨rfl, by simp⟩

theorem fieldOf_eq_none_iff (fd : Byte) : fieldOf fd = none ↔ fdOk fd = false := by
  obtain ⟨hok, h⟩ | ⟨hok, -, w, -, h⟩ | ⟨hok, -, h⟩ := fieldOf_cases fd
  · simp [hok, h]
  · simp [hok, h]
  · simp [hok, h]

/-- A valid slot's field has the length and the range that its descriptor's bits say (R78, R92, R131). -/
theorem slot_of_fieldOf {slot : FieldSlot} {f : FieldForm} (h : fieldOf slot.desc = some f) :
    f.len = slotLen slot ∧ (FieldAdmits f slot.val.toInt ↔ SlotInRange slot) := by
  obtain ⟨-, hnone⟩ | ⟨-, hbit, w, hbytes, hint⟩ | ⟨-, hbit, hspd⟩ := fieldOf_cases slot.desc
  · rw [hnone] at h
    cases h
  · obtain rfl := Option.some.inj (hint.symm.trans h)
    have hbit' : ¬ slot.desc.getLsbD 5 = true := by rw [hbit]; exact Bool.false_ne_true
    rw [slotLen, SlotInRange, if_neg hbit', if_neg hbit', FieldAdmits, hbytes]
    exact ⟨hbytes, .rfl⟩
  · obtain rfl := Option.some.inj (hspd.symm.trans h)
    rw [slotLen, SlotInRange, if_pos hbit, if_pos hbit]
    exact ⟨rfl, .rfl⟩

theorem packedFields_eq_none_iff (slots : List FieldSlot) :
    packedFields slots = none ↔ ∃ slot ∈ slots, fdOk slot.desc = false := by
  induction slots with
  | nil => simp [packedFields]
  | cons slot rest ih =>
    rw [List.exists_mem_cons_iff, ← ih, ← fieldOf_eq_none_iff, packedFields]
    cases fieldOf slot.desc with
    | none => simp
    | some f =>
      cases packedFields rest with
      | none => simp
      | some fs => simp

theorem packedFields_cons_eq_some {slot : FieldSlot} {rest : List FieldSlot} {fs : List PackedField}
    (h : packedFields (slot :: rest) = some fs) :
    ∃ f fs', fieldOf slot.desc = some f ∧ packedFields rest = some fs' ∧ fs = (f, slot.val.toInt) :: fs' := by
  rw [packedFields] at h
  split at h
  · rename_i f fs' hf hfs'
    exact ⟨f, fs', hf, hfs', (Option.some.inj h).symm⟩
  · cases h

theorem fieldsLen_of_packedFields {slots : List FieldSlot} {fs : List PackedField} (h : packedFields slots = some fs) :
    fieldsLen fs = (slots.map slotLen).sum := by
  induction slots generalizing fs with
  | nil =>
    obtain rfl := Option.some.inj h
    rfl
  | cons slot rest ih =>
    obtain ⟨f, fs', hf, hfs', rfl⟩ := packedFields_cons_eq_some h
    rw [fieldsLen_cons, ih hfs', List.map_cons, List.sum_cons, (slot_of_fieldOf hf).1]

/-- RANGE is the only error a field can raise, so it does not matter which slot is the first out of range (R164). -/
theorem fieldsBytes_raisesIff {slots : List FieldSlot} {fs : List PackedField} (strict : Bool)
    (h : packedFields slots = some fs) :
    RaisesIff (fieldsBytes strict fs) .range (strict = true ∧ ∃ slot ∈ slots, ¬ SlotInRange slot) := by
  induction slots generalizing fs with
  | nil =>
    obtain rfl := Option.some.inj h
    exact .inr ⟨by simp, [], rfl⟩
  | cons slot rest ih =>
    obtain ⟨f, fs', hf, hfs', rfl⟩ := packedFields_cons_eq_some h
    rw [List.exists_mem_cons_iff, and_or_left, fieldsBytes, ← (slot_of_fieldOf hf).2]
    obtain ⟨hout, herr⟩ | ⟨hin, bs, hok⟩ := fieldBytes_raisesIff f slot.val.toInt strict
    · exact .inl ⟨.inl hout, by rw [herr]⟩
    · rw [hok]
      obtain ⟨hout', herr'⟩ | ⟨hin', more, hok'⟩ := ih hfs'
      · exact .inl ⟨.inr hout', by rw [herr']⟩
      · exact .inr ⟨not_or.2 ⟨hin, hin'⟩, bs ++ more, by rw [hok']⟩

theorem frameTooLong_iff {s : State} {fs : List PackedField} (h : packedFields s.usedSlots = some fs) :
    s.FrameTooLong ↔ s.params.bufBytes < s.frameLen fs := by
  rw [State.FrameTooLong, State.frameLen, fieldsLen_of_packedFields h, State.usedSlots]

theorem buildOutput_reportsFirst (s : State) : ReportsFirst (ErrorApplies .build s) (buildOutput s) := by
  unfold buildOutput
  cases hfs : packedFields s.usedSlots with
  | none =>
    refine ⟨.inl ⟨rfl, (packedFields_eq_none_iff _).1 hfs⟩, fun e _ => ?_⟩
    cases e <;> decide
  | some fs =>
    have hvalid : ¬ ∃ slot ∈ s.usedSlots, fdOk slot.desc = false := by
      rw [← packedFields_eq_none_iff, hfs]
      exact Option.some_ne_none fs
    refine ReportsFirst.congr ?_ fun e => (or_iff_right fun hillegal => hvalid hillegal.2).symm
    simp only [frameTooLong_iff hfs, ← ite_or]
    refine reportsFirst_ite ?_ (RaisesIff.reportsFirst ?_)
    · rintro e ⟨rfl, -⟩
      decide
    · obtain ⟨hc, herr⟩ | ⟨hc, bs, hok⟩ := fieldsBytes_raisesIff s.strict hfs
      · exact .inl ⟨hc, by rw [herr]⟩
      · exact .inr ⟨hc, ⟨s.frameOf (s.opc :: bs), (checksum s.addr (s.opc :: bs)).zeroExtend 64⟩, by rw [hok]⟩

/-! ### Every command -/

/-- The checks of every command are in the order of R163. -/
theorem commandOutput_reportsFirst (i : Instr) (s : State) : ReportsFirst (ErrorApplies i s) (commandOutput i s) := by
  cases i with
  | packInt1 ord sgn => exact packOutput_reportsFirst (.int .w1 ord sgn) s
  | packInt2 ord sgn => exact packOutput_reportsFirst (.int .w2 ord sgn) s
  | packInt3 ord sgn => exact packOutput_reportsFirst (.int .w3 ord sgn) s
  | packInt4 ord sgn => exact packOutput_reportsFirst (.int .w4 ord sgn) s
  | packInt6 ord sgn => exact packOutput_reportsFirst (.int .w6 ord sgn) s
  | packSpd dir => exact packOutput_reportsFirst (.spd dir) s
  | unpackInt1 ord sgn => exact unpackOutput_reportsFirst .w1 ord sgn s
  | unpackInt2 ord sgn => exact unpackOutput_reportsFirst .w2 ord sgn s
  | unpackInt3 ord sgn => exact unpackOutput_reportsFirst .w3 ord sgn s
  | unpackInt4 ord sgn => exact unpackOutput_reportsFirst .w4 ord sgn s
  | unpackInt6 ord sgn => exact unpackOutput_reportsFirst .w6 ord sgn s
  | sbenc => exact sbencOutput_reportsFirst s
  | sbdec => exact sbdecOutput_reportsFirst s
  | cksum => exact cksumOutput_reportsFirst s
  | build => exact buildOutput_reportsFirst s
  | parse => exact parseOutput_reportsFirst s

/-- Settles O21: every command's checks report the first cause, and a word that does not decode ends in the abort
ILLEGAL. -/
theorem firstErrorIsReported : Obligations.FirstErrorIsReported := by
  refine ⟨fun i s t hexec => ?_, fun s g hdecode hb hw => ⟨s.aborted .illegal, ?_, rfl⟩⟩
  · rw [exec_eq_finish, Host.Outcome.next.injEq] at hexec
    subst hexec
    exact (commandOutput_reportsFirst i s).err_finish s
  · exact (step_of_engine hb hw).trans (engineStep_of_decode_error hdecode)

end Sys2Proof.Machine
end

section
/-! PROOFS. The encoding (30_encoding.md): decoder and encoder are inverse, and the legal words. One fact carries the
words: `decode_eq_ok_iff`, which words decode to a given command. -/

namespace Sys2Proof.Machine

/-! ### Descriptors (R75, R77) -/

/-- A descriptor of the encoder describes its own field. -/
theorem fieldOf_fdOf (f : FieldForm) : fieldOf (fdOf f) = some f := by
  cases f with
  | int w ord sgn => cases w <;> cases ord <;> cases sgn <;> rfl
  | spd dir => cases dir <;> rfl

theorem getLsbD_eq_decide (fd : Byte) (j : Nat) : fd.getLsbD j = decide (fd.toNat / 2 ^ j % 2 = 1) :=
  Nat.testBit_eq_decide_div_mod_eq

theorem toNat_fdWcode (fd : Byte) : (fdWcode fd).toNat = fd.toNat % 8 := by
  simp [fdWcode]

theorem fdIntOk_iff (fd : Byte) : fdIntOk fd = true ↔ fd.toNat < 0x20 ∧ fd.toNat % 8 ≤ 4 := by
  have hfd := fd.isLt
  simp only [fdIntOk, getLsbD_eq_decide, toNat_fdWcode, Bool.and_eq_true, Bool.not_eq_true', decide_eq_true_eq,
    decide_eq_false_iff_not]
  omega

theorem fdSpdOk_iff (fd : Byte) : fdSpdOk fd = true ↔ fd.toNat = 0x20 ∨ fd.toNat = 0x60 := by
  have hfd := fd.isLt
  have hlow : fd.extractLsb' 0 5 = 0#5 ↔ fd.toNat % 32 = 0 := by
    rw [← BitVec.toNat_inj]
    simp
  simp only [fdSpdOk, getLsbD_eq_decide, hlow, Bool.and_eq_true, Bool.not_eq_true', decide_eq_true_eq,
    decide_eq_false_iff_not]
  omega

theorem toNat_ordBit_fdOrder (fd : Byte) : (ordBit (fdOrder fd)).toNat = fd.toNat / 8 % 2 := by
  rw [fdOrder, getLsbD_eq_decide]
  obtain h | h := Nat.mod_two_eq_zero_or_one (fd.toNat / 8) <;> simp [h, ordBit]

theorem toNat_sgnBit_fdSign (fd : Byte) : (sgnBit (fdSign fd)).toNat = fd.toNat / 16 % 2 := by
  rw [fdSign, getLsbD_eq_decide]
  obtain h | h := Nat.mod_two_eq_zero_or_one (fd.toNat / 16) <;> simp [h, sgnBit]

theorem toNat_wcodeOf_of_width {c : BitVec 3} {w : Width} (h : width c = some w) : (wcodeOf w).toNat = c.toNat := by
  unfold width at h
  split at h <;> cases h <;> simp [wcodeOf, *]

/-- The parts of an integer descriptor do not overlap. -/
theorem toNat_fdOf_int (w : Width) (ord : ByteOrder) (sgn : Signedness) :
    (fdOf (.int w ord sgn)).toNat = 16 * (sgnBit sgn).toNat + 8 * (ordBit ord).toNat + (wcodeOf w).toNat := by
  cases w <;> cases ord <;> cases sgn <;> rfl

theorem fdOf_of_fieldOf {fd : Byte} {f : FieldForm} (h : fieldOf fd = some f) : fdOf f = fd := by
  unfold fieldOf at h
  split at h
  · rename_i hint
    obtain ⟨w, hw, rfl⟩ := Option.map_eq_some_iff.1 h
    have ⟨hlt, _⟩ := (fdIntOk_iff fd).1 hint
    apply BitVec.eq_of_toNat_eq
    rw [toNat_fdOf_int, toNat_sgnBit_fdSign, toNat_ordBit_fdOrder, toNat_wcodeOf_of_width hw, toNat_fdWcode]
    omega
  · split at h
    · rename_i hspd
      obtain rfl := Option.some.inj h
      obtain h20 | h60 := (fdSpdOk_iff fd).1 hspd
      · obtain rfl : fd = 0x20 := BitVec.eq_of_toNat_eq h20
        rfl
      · obtain rfl : fd = 0x60 := BitVec.eq_of_toNat_eq h60
        rfl
    · cases h

/-- A byte describes a field exactly when it is the field's descriptor. -/
theorem fieldOf_eq_some_iff (fd : Byte) (f : FieldForm) : fieldOf fd = some f ↔ fdOf f = fd :=
  ⟨fdOf_of_fieldOf, fun h => h ▸ fieldOf_fdOf f⟩

theorem exists_int_fieldOf_iff (fd : Byte) :
    (∃ w ord sgn, fieldOf fd = some (.int w ord sgn)) ↔ fdIntOk fd = true := by
  constructor
  · rintro ⟨w, ord, sgn, h⟩
    obtain rfl := (fieldOf_eq_some_iff _ _).1 h
    cases w <;> cases ord <;> cases sgn <;> rfl
  · intro hint
    obtain ⟨-, hcode⟩ := Bool.and_eq_true_iff.1 hint
    obtain ⟨w, hw, -⟩ := width_of_le (of_decide_eq_true hcode)
    exact ⟨w, _, _, by rw [fieldOf, if_pos hint, hw]; rfl⟩

theorem exists_fieldOf_iff (fd : Byte) : (∃ f, fieldOf fd = some f) ↔ fdOk fd = true := by
  rw [← Option.ne_none_iff_exists', Ne, fieldOf_eq_none_iff, Bool.not_eq_false]

/-! ### Words (R70, R74, R83) -/

theorem toNat_wordOf (fd : Byte) {op : CmdWord} (hop : op.toNat < 256) :
    (wordOf fd op).toNat = 256 * fd.toNat + op.toNat := by
  have hfd := fd.isLt
  have hshift : (fd.zeroExtend 16 <<< 8).toNat = 2 ^ 8 * fd.toNat := by
    rw [BitVec.toNat_shiftLeft, BitVec.toNat_setWidth, Nat.shiftLeft_eq]
    omega
  rw [wordOf, BitVec.toNat_or, hshift, ← Nat.two_pow_add_eq_or_of_lt hop]

theorem toNat_cwOp (w : CmdWord) : (cwOp w).toNat = w.toNat % 16 := by
  simp [cwOp]

theorem toNat_cwRsv (w : CmdWord) : (cwRsv w).toNat = w.toNat / 16 % 16 := by
  simp [cwRsv, Nat.shiftRight_eq_div_pow]

theorem toNat_cwFd (w : CmdWord) : (cwFd w).toNat = w.toNat / 256 % 256 := by
  simp [cwFd, Nat.shiftRight_eq_div_pow]

/-- A word is its descriptor and its OP exactly when RSV is 0. -/
theorem eq_wordOf_iff (w : CmdWord) (fd : Byte) {op : Nat} (hop : op < 16) :
    w = wordOf fd (BitVec.ofNat 16 op) ↔ cwRsv w = 0 ∧ (cwOp w).toNat = op ∧ cwFd w = fd := by
  have hw := w.isLt
  have hfd := fd.isLt
  have hop' : (BitVec.ofNat 16 op).toNat = op := Nat.mod_eq_of_lt (by omega)
  have hzero : (0 : BitVec 4).toNat = 0 := rfl
  rw [← BitVec.toNat_inj, ← BitVec.toNat_inj, ← BitVec.toNat_inj, toNat_wordOf fd (by omega), toNat_cwRsv, toNat_cwOp,
    toNat_cwFd, hop', hzero]
  omega

theorem encode_packField (f : FieldForm) : encode (.packField f) = wordOf (fdOf f) (BitVec.ofNat 16 1) := by
  cases f with
  | int w ord sgn => cases w <;> rfl
  | spd dir => rfl

theorem encode_unpackInt (w : Width) (ord : ByteOrder) (sgn : Signedness) :
    encode (.unpackInt w ord sgn) = wordOf (fdOf (.int w ord sgn)) (BitVec.ofNat 16 2) := by
  cases w <;> rfl

/-- The commands without a descriptor, with their OPs (R71). -/
def plainCommands : List (Nat × Instr) := [(3, .sbenc), (4, .sbdec), (5, .cksum), (6, .build), (7, .parse)]

theorem op_lt_of_mem_plainCommands {op : Nat} {i : Instr} (h : (op, i) ∈ plainCommands) : op < 16 := by
  simp only [plainCommands, List.mem_cons, Prod.mk.injEq, List.not_mem_nil, or_false] at h
  omega

theorem encode_plain {op : Nat} {i : Instr} (h : (op, i) ∈ plainCommands) :
    encode i = wordOf 0 (BitVec.ofNat 16 op) := by
  simp only [plainCommands, List.mem_cons, Prod.mk.injEq, List.not_mem_nil, or_false] at h
  obtain ⟨rfl, rfl⟩ | ⟨rfl, rfl⟩ | ⟨rfl, rfl⟩ | ⟨rfl, rfl⟩ | ⟨rfl, rfl⟩ := h <;> rfl

/-- Every command is a PACK, an UNPACK, or a command without a descriptor. -/
theorem instr_cases (i : Instr) :
    (∃ f, i = .packField f) ∨ (∃ w ord sgn, i = .unpackInt w ord sgn) ∨ ∃ op, (op, i) ∈ plainCommands := by
  cases i with
  | packInt1 ord sgn => exact .inl ⟨.int .w1 ord sgn, rfl⟩
  | packInt2 ord sgn => exact .inl ⟨.int .w2 ord sgn, rfl⟩
  | packInt3 ord sgn => exact .inl ⟨.int .w3 ord sgn, rfl⟩
  | packInt4 ord sgn => exact .inl ⟨.int .w4 ord sgn, rfl⟩
  | packInt6 ord sgn => exact .inl ⟨.int .w6 ord sgn, rfl⟩
  | packSpd dir => exact .inl ⟨.spd dir, rfl⟩
  | unpackInt1 ord sgn => exact .inr (.inl ⟨.w1, ord, sgn, rfl⟩)
  | unpackInt2 ord sgn => exact .inr (.inl ⟨.w2, ord, sgn, rfl⟩)
  | unpackInt3 ord sgn => exact .inr (.inl ⟨.w3, ord, sgn, rfl⟩)
  | unpackInt4 ord sgn => exact .inr (.inl ⟨.w4, ord, sgn, rfl⟩)
  | unpackInt6 ord sgn => exact .inr (.inl ⟨.w6, ord, sgn, rfl⟩)
  | sbenc => exact .inr (.inr ⟨3, by simp [plainCommands]⟩)
  | sbdec => exact .inr (.inr ⟨4, by simp [plainCommands]⟩)
  | cksum => exact .inr (.inr ⟨5, by simp [plainCommands]⟩)
  | build => exact .inr (.inr ⟨6, by simp [plainCommands]⟩)
  | parse => exact .inr (.inr ⟨7, by simp [plainCommands]⟩)

/-! ### The decoder (R73, R74) -/

theorem decodePack_eq_ok_iff (fd : Byte) (i : Instr) :
    decodePack fd = .ok i ↔ ∃ f, fieldOf fd = some f ∧ i = .packField f := by
  unfold decodePack
  cases fieldOf fd with
  | none => simp
  | some f => simp [eq_comm]

theorem decodeUnpack_eq_ok_iff (fd : Byte) (i : Instr) :
    decodeUnpack fd = .ok i ↔ ∃ w ord sgn, fieldOf fd = some (.int w ord sgn) ∧ i = .unpackInt w ord sgn := by
  unfold decodeUnpack
  cases fieldOf fd with
  | none => simp
  | some f =>
    cases f with
    | spd dir => simp
    | int w ord sgn =>
      constructor
      · intro h
        exact ⟨w, ord, sgn, rfl, (Except.ok.inj h).symm⟩
      · rintro ⟨w', ord', sgn', h, rfl⟩
        cases h
        rfl

theorem decodePlain_eq_ok_iff (fd : Byte) (i j : Instr) : decodePlain fd j = .ok i ↔ fd = 0 ∧ i = j := by
  unfold decodePlain
  by_cases h : fd = 0
  · rw [if_pos h, Except.ok.injEq]
    exact ⟨fun hij => ⟨h, hij.symm⟩, fun hij => hij.2.symm⟩
  · rw [if_neg h]
    exact iff_of_false (fun he => nomatch he) fun hij => h hij.1

/-- The words that decode to a command, by the fields of the word. -/
theorem decode_eq_ok_iff (w : CmdWord) (i : Instr) :
    decode w = .ok i ↔ cwRsv w = 0 ∧
      (((cwOp w).toNat = 1 ∧ ∃ f, fieldOf (cwFd w) = some f ∧ i = .packField f) ∨
       ((cwOp w).toNat = 2 ∧ ∃ wd ord sgn, fieldOf (cwFd w) = some (.int wd ord sgn) ∧ i = .unpackInt wd ord sgn) ∨
       (cwFd w = 0 ∧ ((cwOp w).toNat, i) ∈ plainCommands)) := by
  unfold decode
  by_cases hrsv : cwRsv w = 0
  · simp only [hrsv, plainCommands, List.mem_cons, Prod.mk.injEq, List.not_mem_nil, or_false, ne_eq,
      not_true_eq_false, if_false, true_and]
    generalize (cwOp w).toNat = op
    match op with
    | 0 => simp
    | 1 => simp [decodePack_eq_ok_iff]
    | 2 => simp [decodeUnpack_eq_ok_iff]
    | 3 | 4 | 5 | 6 | 7 => simp [decodePlain_eq_ok_iff]
    | op + 8 => simp
  · rw [if_pos hrsv]
    exact iff_of_false (fun he => nomatch he) fun hw => hrsv hw.1

/-! ### The obligations -/

/-- Settles O2: the encoding of each of the three formats has RSV = 0, its own OP, and the descriptor of its field. -/
theorem decodeOfEncode : Obligations.DecodeOfEncode := by
  intro i
  rw [decode_eq_ok_iff]
  obtain ⟨f, rfl⟩ | ⟨w, ord, sgn, rfl⟩ | ⟨op, hmem⟩ := instr_cases i
  · obtain ⟨hrsv, hop, hfd⟩ := (eq_wordOf_iff _ _ (by decide)).1 (encode_packField f)
    exact ⟨hrsv, .inl ⟨hop, f, hfd ▸ fieldOf_fdOf f, rfl⟩⟩
  · obtain ⟨hrsv, hop, hfd⟩ := (eq_wordOf_iff _ _ (by decide)).1 (encode_unpackInt w ord sgn)
    exact ⟨hrsv, .inr (.inl ⟨hop, w, ord, sgn, hfd ▸ fieldOf_fdOf _, rfl⟩)⟩
  · obtain ⟨hrsv, hop, hfd⟩ := (eq_wordOf_iff _ _ (op_lt_of_mem_plainCommands hmem)).1 (encode_plain hmem)
    exact ⟨hrsv, .inr (.inr ⟨hfd, hop.symm ▸ hmem⟩)⟩

/-- Settles O3: the fields of a word that decodes are those the encoder puts into it. -/
theorem encodeOfDecode : Obligations.EncodeOfDecode := by
  intro w i h
  obtain ⟨hrsv, ⟨hop, f, hf, rfl⟩ | ⟨hop, wd, ord, sgn, hf, rfl⟩ | ⟨hfd, hmem⟩⟩ := (decode_eq_ok_iff w i).1 h
  · rw [encode_packField, fdOf_of_fieldOf hf]
    exact ((eq_wordOf_iff _ _ (by decide)).2 ⟨hrsv, hop, rfl⟩).symm
  · rw [encode_unpackInt, fdOf_of_fieldOf hf]
    exact ((eq_wordOf_iff _ _ (by decide)).2 ⟨hrsv, hop, rfl⟩).symm
  · rw [encode_plain hmem]
    exact ((eq_wordOf_iff _ _ (op_lt_of_mem_plainCommands hmem)).2 ⟨hrsv, rfl, hfd⟩).symm

theorem exists_mem_plainCommands_iff (op : Nat) : (∃ i, (op, i) ∈ plainCommands) ↔ 3 ≤ op ∧ op ≤ 7 := by
  simp only [plainCommands, List.mem_cons, Prod.mk.injEq, List.not_mem_nil, or_false, exists_or, exists_and_left,
    exists_eq, and_true]
  omega

theorem fdOk_iff (fd : Byte) :
    fdOk fd = true ↔ (fd.toNat < 0x20 ∧ fd.toNat % 8 ≤ 4) ∨ fd.toNat = 0x20 ∨ fd.toNat = 0x60 := by
  rw [fdOk, Bool.or_eq_true, fdIntOk_iff, fdSpdOk_iff]

/-- The legal words by their fields (R73). -/
theorem exists_decode_eq_ok_iff (w : CmdWord) :
    (∃ i, decode w = .ok i) ↔ cwRsv w = 0 ∧
      (((cwOp w).toNat = 1 ∧ fdOk (cwFd w) = true) ∨ ((cwOp w).toNat = 2 ∧ fdIntOk (cwFd w) = true) ∨
       (3 ≤ (cwOp w).toNat ∧ (cwOp w).toNat ≤ 7 ∧ cwFd w = 0)) := by
  simp only [decode_eq_ok_iff, ← exists_fieldOf_iff, ← exists_int_fieldOf_iff, ← and_assoc (a := 3 ≤ _),
    ← exists_mem_plainCommands_iff]
  constructor
  · rintro ⟨i, hrsv, ⟨hop, f, hf, -⟩ | ⟨hop, wd, ord, sgn, hf, -⟩ | ⟨hfd, hmem⟩⟩
    · exact ⟨hrsv, .inl ⟨hop, f, hf⟩⟩
    · exact ⟨hrsv, .inr (.inl ⟨hop, wd, ord, sgn, hf⟩)⟩
    · exact ⟨hrsv, .inr (.inr ⟨⟨i, hmem⟩, hfd⟩)⟩
  · rintro ⟨hrsv, ⟨hop, f, hf⟩ | ⟨hop, wd, ord, sgn, hf⟩ | ⟨⟨i, hmem⟩, hfd⟩⟩
    · exact ⟨_, hrsv, .inl ⟨hop, f, hf, rfl⟩⟩
    · exact ⟨_, hrsv, .inr (.inl ⟨hop, wd, ord, sgn, hf, rfl⟩)⟩
    · exact ⟨i, hrsv, .inr (.inr ⟨hfd, hmem⟩)⟩

/-- Settles O5: the fields of a legal word (`exists_decode_eq_ok_iff`), each condition on FD as its number. -/
theorem legalWordsByTheirBits : Obligations.LegalWordsByTheirBits := by
  intro w
  have hzero : (cwFd w).toNat = 0 ↔ cwFd w = 0 := BitVec.toNat_inj (y := 0#8)
  have hlegal := exists_decode_eq_ok_iff w
  rw [fdOk_iff, fdIntOk_iff, ← hzero] at hlegal
  exact hlegal

/-- Settles O1: each word is the encoding of its command, and decodes to it by `decodeOfEncode`. -/
theorem writtenOutWordsDecode : Obligations.WrittenOutWordsDecode :=
  ⟨decodeOfEncode (.packInt1 .le .unsigned), decodeOfEncode (.packInt3 .be .signed), decodeOfEncode (.packSpd true),
    decodeOfEncode (.unpackInt6 .be .unsigned), decodeOfEncode .sbenc, decodeOfEncode .sbdec, decodeOfEncode .cksum,
    decodeOfEncode .build, decodeOfEncode .parse, rfl, rfl⟩

end Sys2Proof.Machine
end

section
/-! PROOFS. The invariant of the block and the fields only the host writes: one lemma for each thing a step can do,
then the cases of `step_cases`. -/

namespace Sys2Proof.Machine

/-! ### The invariant, operation by operation -/

/-- Bits 7:3 of a value written to CTRL are 0 (R31). -/
theorem extractLsb'_ctrlMask (v : BitVec 8) : (ctrlMask v).extractLsb' 3 5 = 0#5 := by
  apply BitVec.eq_of_toNat_eq
  rw [BitVec.extractLsb'_toNat, toNat_ctrlMask, Nat.shiftRight_eq_div_pow, Nat.div_eq_of_lt (Nat.mod_lt _ (by decide))]
  rfl

namespace State.Inv

variable {s : State}

theorem setHost (h : s.Inv) (ops : List HostOp) : (s.setHost ops).Inv := { h with }

theorem elapse (h : s.Inv) : s.elapse.Inv := { h with }

theorem noteRead (h : s.Inv) (v : BitVec 64) : (s.noteRead v).Inv := { h with }

theorem issue (h : s.Inv) (w : CmdWord) : (s.issue w).Inv := { h with }

theorem setIbuf (h : s.Inv) {k : Nat} (hk : k < s.params.bufBytes) (b : Byte) :
    State.Inv { s with ibuf := memSet s.ibuf k b } :=
  { h with ibuf_ok := memSet_inside h.ibuf_ok hk b }

theorem writeReg (h : s.Inv) (r : Reg) (v : Nat) : (s.writeReg r v).Inv := by
  cases r with
  | status | olen | result => exact h
  | addr | opc | nf | offset | expw | ilen | value => exact { h with }
  | cmd => exact h.issue _
  | ctrl => exact { h with ctrl_reserved := extractLsb'_ctrlMask _ }
  | fdesc i | fval i => exact { h with nfMax_ok := by rw [State.nfMax_writeReg]; exact h.nfMax_ok }

theorem hostWrite (h : s.Inv) (tg : Target) (v : Nat) : (s.hostWrite tg v).Inv := by
  obtain heq | ⟨n, r, -, -, heq⟩ | ⟨k, -, hk, heq⟩ := hostWrite_cases s tg v
  · rwa [heq]
  · rw [heq]
    exact h.writeReg r v
  · rw [heq]
    exact h.setIbuf hk _

theorem errorAbort (h : s.Inv) (e : Err) : (s.errorAbort e).Inv :=
  { h with
    olen_fits := Nat.zero_le _
    output_stored := fun k hk => absurd hk (Nat.not_lt_zero k)
    error_clears := fun _ => ⟨rfl, rfl⟩ }

theorem succeed (h : s.Inv) {o : Output} (hfit : o.bytes.length ≤ s.params.bufBytes) : (s.succeed o).Inv :=
  have holen := toNat_olen_succeed h.params_ok hfit
  { h with
    obuf_ok := memWrite_inside h.obuf_ok hfit
    olen_fits := holen ▸ hfit
    output_stored := fun k hk => by
      rw [State.succeed_obuf, memGet_memWrite_inside s.obuf o.bytes (holen ▸ hk), Option.isSome_some]
    error_clears := fun herr => absurd rfl herr }

theorem finish_commandOutput (h : s.Inv) (i : Instr) : (s.finish (commandOutput i s)).Inv := by
  cases hout : commandOutput i s with
  | error e => exact h.errorAbort e
  | ok o =>
    have ⟨hmin, _⟩ := of_decide_eq_true h.params_ok
    exact h.succeed (commandOutput_fits hmin hout)

theorem of_engineStep (h : s.Inv) {t : State} (hstep : engineStep s = .next t) : t.Inv := by
  obtain ⟨i, -, hend⟩ | ⟨g, -, hend⟩ := engineStep_cases s
  · exact Host.Outcome.next.inj (hend.symm.trans hstep) ▸ h.finish_commandOutput i
  · exact Host.Outcome.next.inj (hend.symm.trans hstep) ▸ h.errorAbort .illegal

/-- The state after reset meets the invariant (R190). -/
theorem init {p : Params} {nfMax : Nat} (hp : p.wellFormed = true) (hn : nfMaxWellFormed nfMax = true)
    (lat : List Nat) : (State.init p nfMax lat).Inv where
  params_ok := hp
  nfMax_ok := by rw [State.nfMax_init]; exact hn
  ctrl_reserved := by rw [State.init_ctrl]; rfl
  ibuf_ok := nil_inside _
  obuf_ok := nil_inside _
  olen_fits := Nat.zero_le _
  output_stored := fun k hk => absurd hk (Nat.not_lt_zero k)
  error_clears := fun herr => absurd rfl herr

theorem blockReset (h : s.Inv) : s.blockReset.Inv := { State.Inv.init h.params_ok h.nfMax_ok s.latency with }

theorem of_hostTurn (h : s.Inv) {op : HostOp} {t : State} (hturn : hostTurn op s = .next t) : t.Inv := by
  obtain ⟨-, rfl⟩ | rfl | ⟨v, rfl⟩ | ⟨v, -, -, rfl⟩ | ⟨tg, v, l, -, -, -, rfl⟩ := hostTurn_cases hturn
  · exact h.blockReset
  · exact h
  · exact h.noteRead v
  · exact (h.noteRead v).setHost _
  · exact h.hostWrite tg v

end State.Inv

/-- Settles O53: the engine's completion and every host turn keep the invariant, and so does the passing of a turn. -/
theorem stepKeepsTheInvariant : Obligations.StepKeepsTheInvariant := by
  intro s t h hstep
  obtain ⟨-, -, hengine⟩ | ⟨-, -, -, rfl⟩ | ⟨-, -, rfl⟩ | ⟨op, rest, -, -, -, hturn⟩ | ⟨op, rest, -, -, hturn⟩ :=
    step_cases hstep
  · exact h.of_engineStep hengine
  · exact h.elapse
  · exact h
  · exact (h.elapse.setHost rest).of_hostTurn hturn
  · exact (h.setHost rest).of_hostTurn hturn

/-- Settles O54 (`State.Inv.init`). -/
theorem resetMeetsTheInvariant : Obligations.ResetMeetsTheInvariant :=
  ⟨.init (by decide) (by decide) [], fun _ _ lat hp hn => .init hp hn lat⟩

/-! ### The fields only the host writes -/

/-- The control and operand registers, the table and IBUF (R23, R52). -/
def State.operands (s : State) :=
  (s.ctrl, s.addr, s.opc, s.nf, s.offset, s.expw, s.ilen, s.value, s.slots, s.ibuf)

theorem operands_finish (s : State) (r : Except Err Output) : (s.finish r).operands = s.operands := by
  simp [State.operands]

theorem operands_engineStep {s t : State} (h : engineStep s = .next t) : t.operands = s.operands := by
  obtain ⟨i, -, hend⟩ | ⟨g, -, hend⟩ := engineStep_cases s
  · exact Host.Outcome.next.inj (hend.symm.trans h) ▸ operands_finish s _
  · exact Host.Outcome.next.inj (hend.symm.trans h) ▸ operands_finish s _

/-- A host turn that changes an operand is a write made while BUSY = 0, or a reset. -/
theorem hostTurn_of_operands_ne {s u t : State} {op : HostOp} {rest : List HostOp} (hh : s.host = op :: rest)
    (hbusy : u.busy = s.busy) (hsame : u.operands = s.operands) (hturn : hostTurn op u = .next t)
    (hne : t.operands ≠ s.operands) :
    (∃ l v rest, s.host = .write l v :: rest ∧ s.busy = false) ∨ (∃ rest, s.host = .reset :: rest) := by
  obtain ⟨rfl, -⟩ | rfl | ⟨v, rfl⟩ | ⟨v, -, -, rfl⟩ | ⟨tg, v, l, rfl, -, hb, -⟩ := hostTurn_cases hturn
  · exact .inr ⟨rest, hh⟩
  · exact absurd hsame hne
  · exact absurd hsame hne
  · exact absurd hsame hne
  · exact .inl ⟨l, v, rest, hh, hbusy ▸ hb⟩

/-- Settles O15: neither the engine nor a passing turn changes an operand, and a host turn that does is a write made
while BUSY = 0, or a reset. -/
theorem onlyTheHostWritesOperands : Obligations.OnlyTheHostWritesOperands := by
  intro s t hstep hne
  change t.operands ≠ s.operands at hne
  obtain ⟨-, -, hengine⟩ | ⟨-, -, -, rfl⟩ | ⟨-, -, rfl⟩ | ⟨op, rest, hh, -, -, hturn⟩ | ⟨op, rest, hh, -, hturn⟩ :=
    step_cases hstep
  · exact absurd (operands_engineStep hengine) hne
  · exact absurd rfl hne
  · exact absurd rfl hne
  · exact hostTurn_of_operands_ne (u := s.elapse.setHost rest) hh rfl rfl hturn hne
  · exact hostTurn_of_operands_ne (u := s.setHost rest) hh rfl rfl hturn hne

end Sys2Proof.Machine
end

section
/-! PROOFS. The host's port (10_state.md, 20_memory.md, 70_reset_and_hazards.md section 1): the register map, accesses
to registers and buffers, and the reset. -/

namespace Sys2Proof.Machine

/-! ### The register map (R21) -/

/-- Above the fixed registers the number is a slot's, or reserved. -/
theorem regAt_of_ge (nfMax : Nat) {n : BitVec 8} (h : 0x0C ≤ n.toNat) :
    regAt nfMax n =
      if 0x10 ≤ n.toNat ∧ n.toNat < 0x20 ∧ n.toNat - 0x10 < nfMax then some (.fdesc (n.toNat - 0x10))
      else if 0x20 ≤ n.toNat ∧ n.toNat < 0x30 ∧ n.toNat - 0x20 < nfMax then some (.fval (n.toNat - 0x20))
      else none := by
  unfold regAt
  split
  case h_13 => rfl
  all_goals omega

theorem toNat_regNumber_fdesc {i : Nat} (h : i < 16) : (regNumber (.fdesc i)).toNat = 0x10 + i := by
  rw [regNumber, BitVec.toNat_ofNat]
  omega

theorem toNat_regNumber_fval {i : Nat} (h : i < 16) : (regNumber (.fval i)).toNat = 0x20 + i := by
  rw [regNumber, BitVec.toNat_ofNat]
  omega

theorem regAt_regNumber {nfMax : Nat} (hmax : nfMax ≤ 16) {r : Reg} (h : regExists nfMax r) :
    regAt nfMax (regNumber r) = some r := by
  cases r with
  | fdesc i =>
    have hi : i < nfMax := h
    have hn := toNat_regNumber_fdesc (hi.trans_le hmax)
    rw [regAt_of_ge nfMax (by omega), if_pos (by omega), hn, Nat.add_sub_cancel_left]
  | fval i =>
    have hi : i < nfMax := h
    have hn := toNat_regNumber_fval (hi.trans_le hmax)
    rw [regAt_of_ge nfMax (by omega), if_neg (by omega), if_pos (by omega), hn, Nat.add_sub_cancel_left]
  | _ => rfl

/-- The twelve fixed registers. -/
theorem regAt_of_lt (nfMax : Nat) {n : BitVec 8} (h : n.toNat < 0x0C) :
    ∃ r, regAt nfMax n = some r ∧ regExists nfMax r ∧ regNumber r = n := by
  unfold regAt
  generalize hm : n.toNat = m at h
  interval_cases m <;> exact ⟨_, rfl, trivial, BitVec.eq_of_toNat_eq hm.symm⟩

theorem regAt_eq_some {nfMax : Nat} {n : BitVec 8} {r : Reg} (h : regAt nfMax n = some r) :
    regExists nfMax r ∧ regNumber r = n := by
  obtain hlt | hge := Nat.lt_or_ge n.toNat 0x0C
  · obtain ⟨r', hr', hmap⟩ := regAt_of_lt nfMax hlt
    obtain rfl := Option.some.inj (hr'.symm.trans h)
    exact hmap
  · rw [regAt_of_ge nfMax hge] at h
    split at h
    · obtain rfl := Option.some.inj h
      exact ⟨by simp only [regExists]; omega,
        BitVec.eq_of_toNat_eq ((toNat_regNumber_fdesc (by omega)).trans (by omega))⟩
    · split at h
      · obtain rfl := Option.some.inj h
        exact ⟨by simp only [regExists]; omega,
          BitVec.eq_of_toNat_eq ((toNat_regNumber_fval (by omega)).trans (by omega))⟩
      · cases h

theorem regAt_eq_none_iff {nfMax : Nat} (hmax : nfMax ≤ 16) (n : BitVec 8) :
    regAt nfMax n = none ↔ reservedNumber nfMax n := by
  unfold reservedNumber
  obtain hlt | hge := Nat.lt_or_ge n.toNat 0x0C
  · obtain ⟨r, hr, -⟩ := regAt_of_lt nfMax hlt
    exact iff_of_false (by simp [hr]) (by omega)
  · rw [regAt_of_ge nfMax hge]
    split
    · exact iff_of_false (Option.some_ne_none _) (by omega)
    · split
      · exact iff_of_false (Option.some_ne_none _) (by omega)
      · exact iff_of_true rfl (by omega)

/-- Settles O6: `regNumber` and `regAt` are inverse on the registers there are, and the other numbers are reserved. -/
theorem registerMap : Obligations.RegisterMap := fun _ n hmax =>
  ⟨fun _ => ⟨regAt_eq_some, fun ⟨hr, hn⟩ => hn ▸ regAt_regNumber hmax hr⟩, regAt_eq_none_iff hmax n⟩

/-! ### Register writes (R22, R31) -/

@[simp] theorem writeReg_fdesc (s : State) (i v : Nat) :
    s.writeReg (.fdesc i) v =
      { s with slots := s.slots.modify i fun slot => { slot with desc := BitVec.ofNat 8 v } } := rfl

@[simp] theorem writeReg_fval (s : State) (i v : Nat) :
    s.writeReg (.fval i) v =
      { s with slots := s.slots.modify i fun slot => { slot with val := BitVec.ofNat 64 v } } := rfl

@[simp] theorem byteAt_writeReg (s : State) (r : Reg) (v : Nat) (b : Buffer) (k : Nat) :
    (s.writeReg r v).byteAt b k = s.byteAt b k := by
  cases b <;> cases r <;> rfl

theorem writeReg_ctrl_of_ne (s : State) {r : Reg} (v : Nat) (h : r ≠ .ctrl) : (s.writeReg r v).ctrl = s.ctrl := by
  cases r with
  | ctrl => exact absurd rfl h
  | _ => rfl

theorem writeReg_of_ro (s : State) {r : Reg} (v : Nat) (h : regAccess r = .ro) : s.writeReg r v = s := by
  cases r with
  | status | olen | result => rfl
  | _ => cases h

theorem zeroExtend_ofNat (w v : Nat) : (BitVec.ofNat w v).zeroExtend 64 = BitVec.ofNat 64 (v % 2 ^ w) := by
  apply BitVec.eq_of_toNat_eq
  simp

theorem ofNat_eq_ofNat_mod (w v : Nat) : BitVec.ofNat w v = BitVec.ofNat w (v % 2 ^ w) := by
  apply BitVec.eq_of_toNat_eq
  simp

theorem readReg_fdesc (s : State) (i : Nat) :
    s.readReg (.fdesc i) = (s.slots[i]?.map fun slot => slot.desc.zeroExtend 64).getD 0 := by
  cases h : s.slots[i]? <;> simp [State.readReg, h]

theorem readReg_fval (s : State) (i : Nat) : s.readReg (.fval i) = (s.slots[i]?.map FieldSlot.val).getD 0 := by
  cases h : s.slots[i]? <;> simp [State.readReg, h]

/-- An RW register keeps the low bits of the value. -/
theorem readReg_writeReg_same (s : State) {r : Reg} (v : Nat) (hr : regExists s.nfMax r) (hrw : regAccess r = .rw) :
    (s.writeReg r v).readReg r = BitVec.ofNat 64 (if r = .ctrl then v % 8 else v % 2 ^ regWidth r) := by
  cases r with
  | status | olen | result | cmd => cases hrw
  | ctrl =>
    apply BitVec.eq_of_toNat_eq
    rw [toNat_readReg_ctrl, State.writeReg_ctrl, if_pos rfl, toNat_ctrlMask, BitVec.toNat_ofNat, BitVec.toNat_ofNat]
    omega
  | addr | opc | nf => exact zeroExtend_ofNat 8 v
  | offset | expw | ilen => exact zeroExtend_ofNat 16 v
  | value => exact ofNat_eq_ofNat_mod 64 v
  | fdesc i =>
    have hi : s.slots[i]? = some s.slots[i] := List.getElem?_eq_getElem hr
    simpa [readReg_fdesc, hi, regWidth] using zeroExtend_ofNat 8 v
  | fval i =>
    have hi : s.slots[i]? = some s.slots[i] := List.getElem?_eq_getElem hr
    simpa [readReg_fval, hi, regWidth] using ofNat_eq_ofNat_mod 64 v

theorem readReg_writeReg_other (s : State) {r r' : Reg} (v : Nat) (hcmd : r ≠ .cmd) (h : r' ≠ r) :
    (s.writeReg r v).readReg r' = s.readReg r' := by
  cases r' with
  | status =>
    cases r with
    | cmd => exact absurd rfl hcmd
    | _ => rfl
  | cmd => rfl
  | olen | result => cases r <;> rfl
  | ctrl | addr | opc | nf | offset | expw | ilen | value => cases r <;> simp_all [State.readReg]
  | fdesc j =>
    rw [readReg_fdesc, readReg_fdesc]
    cases r with
    | fdesc i =>
      have hij : i ≠ j := fun hij => h (hij ▸ rfl)
      simp [hij]
    | fval i => by_cases hij : i = j <;> simp [hij, Function.comp_def]
    | _ => rfl
  | fval j =>
    rw [readReg_fval, readReg_fval]
    cases r with
    | fdesc i => by_cases hij : i = j <;> simp [hij, Function.comp_def]
    | fval i =>
      have hij : i ≠ j := fun hij => h (hij ▸ rfl)
      simp [hij]
    | _ => rfl

/-- No field of State changes in a register write but the register's own. -/
theorem writeReg_frame (s : State) {r : Reg} (v : Nat) (hcmd : r ≠ .cmd) :
    s.writeReg r v =
      { s with
        ctrl := (s.writeReg r v).ctrl
        addr := (s.writeReg r v).addr
        opc := (s.writeReg r v).opc
        nf := (s.writeReg r v).nf
        offset := (s.writeReg r v).offset
        expw := (s.writeReg r v).expw
        ilen := (s.writeReg r v).ilen
        value := (s.writeReg r v).value
        slots := (s.writeReg r v).slots } := by
  cases r with
  | cmd => exact absurd rfl hcmd
  | _ => rfl

/-- Settles O7: the step is the register write with the host's list advanced. -/
theorem hostRegisterWrite : Obligations.HostRegisterWrite := by
  intro s r v rest hb hmax hr hcmd hh
  refine ⟨_, step_of_hostWr hb (regAt_regNumber hmax hr) hh, readReg_writeReg_same _ v hr, writeReg_of_ro _ v,
    fun r' hne => ?_, writeReg_ctrl_of_ne _ v, fun b k => ?_, ?_, writeReg_frame (s.setHost rest) v hcmd⟩
  · rw [readReg_writeReg_other _ v hcmd hne, State.setHost_readReg]
  · rw [byteAt_writeReg, State.setHost_byteAt]
  · rw [State.nfMax_writeReg, State.setHost_nfMax]

/-! ### Register reads (R22, R25) -/

theorem toNat_statusWord (busy : Bool) (err : BitVec 4) :
    (statusWord busy err).toNat = 16 * busy.toNat + err.toNat := by
  have herr := err.isLt
  rw [statusWord, BitVec.toNat_append, BitVec.toNat_append, Nat.shiftLeft_eq, Nat.shiftLeft_eq]
  cases busy
  · simp
  · have hor : 2 ^ 4 * 1 + err.toNat = 2 ^ 4 * 1 ||| err.toNat := Nat.two_pow_add_eq_or_of_lt herr 1
    simpa using hor.symm

theorem toNat_readReg_status_idle {s : State} (hb : s.busy = false) :
    (s.readReg .status).toNat = (errCode s.err).toNat := by
  rw [State.readReg, BitVec.toNat_setWidth_of_le (by decide), State.status, hb, if_neg Bool.false_ne_true,
    toNat_statusWord]
  simp

/-- Settles O8: the step notes the register's contents, and those of each register are its field. -/
theorem hostRegisterRead : Obligations.HostRegisterRead := by
  intro s r rest hb hmax hr hh
  refine ⟨s.readReg r, step_of_hostRd hb (regAt_regNumber hmax hr) hh,
    ?_, ?_, ?_, ?_, ?_, ?_, ?_, ?_, ?_, ?_, ?_, ?_, ?_, ?_⟩
  · rintro rfl
    exact toNat_readReg_ctrl s
  · rintro rfl
    exact toNat_readReg_status_idle hb
  · rintro rfl
    rfl
  · rintro rfl
    exact BitVec.toNat_setWidth_of_le (by decide)
  · rintro rfl
    exact BitVec.toNat_setWidth_of_le (by decide)
  · rintro rfl
    exact BitVec.toNat_setWidth_of_le (by decide)
  · rintro rfl
    exact BitVec.toNat_setWidth_of_le (by decide)
  · rintro rfl
    exact BitVec.toNat_setWidth_of_le (by decide)
  · rintro rfl
    exact BitVec.toNat_setWidth_of_le (by decide)
  · rintro rfl
    exact BitVec.toNat_setWidth_of_le (by decide)
  · rintro rfl
    rfl
  · rintro rfl
    rfl
  · rintro i slot hslot rfl
    rw [readReg_fdesc, hslot]
    exact BitVec.toNat_setWidth_of_le (by decide)
  · rintro i slot hslot rfl
    rw [readReg_fval, hslot]
    rfl

/-! ### Reserved numbers, buffers, HOST_MAP and idleness (R22, R51, R62, R176) -/

theorem step_of_write {s : State} {tg : Target} {v : Nat} {rest : List HostOp} (hb : s.busy = false)
    (hh : s.host = .write (.direct tg) v :: rest) : step s = .next ((s.setHost rest).hostWrite tg v) :=
  (step_of_host hb hh).trans (hostTurn_write (s := s.setHost rest) hb rfl v)

theorem step_of_read {s : State} {tg : Target} {rest : List HostOp} (hb : s.busy = false)
    (hh : s.host = .read (.direct tg) :: rest) :
    step s = .next ((s.setHost rest).noteRead ((s.setHost rest).hostRead tg)) :=
  (step_of_host hb hh).trans (hostTurn_read (s := s.setHost rest) hb rfl)

theorem hostWrite_reserved {s : State} {n : BitVec 8} (h : regAt s.nfMax n = none) (v : Nat) :
    s.hostWrite (.reg n) v = s := by
  rw [State.hostWrite, h]

theorem hostRead_reserved {s : State} {n : BitVec 8} (h : regAt s.nfMax n = none) : s.hostRead (.reg n) = 0 := by
  rw [State.hostRead, h]

/-- Settles O9: the map names no register at a reserved number. -/
theorem reservedNumbersReadZero : Obligations.ReservedNumbersReadZero := by
  intro s n v rest hb hmax hreserved
  have hnone : regAt (s.setHost rest).nfMax n = none := (regAt_eq_none_iff hmax n).2 hreserved
  refine ⟨fun hh => ?_, fun hh => ?_⟩
  · rw [step_of_write hb hh, hostWrite_reserved hnone]
    rfl
  · rw [step_of_read hb hh, hostRead_reserved hnone]
    rfl

/-- Settles O11: the step is the write of the byte, and `memGet_memSet` says what the buffer holds after it. -/
theorem hostBufferWrite : Obligations.HostBufferWrite := by
  intro s k v rest hb
  refine ⟨fun hh hk => ?_, fun hh hk => ?_, fun hh => step_of_write hb hh⟩
  · rw [step_of_write hb hh, hostWrite_ibuf (s := s.setHost rest) hk]
    refine ⟨_, rfl, rfl, ?_, fun j hj => ?_⟩
    · simp [State.byteAt]
    · simp [State.byteAt, memGet_memSet_other _ _ hj.symm]
  · rw [step_of_write hb hh, hostWrite_outside (s := s.setHost rest) hk]
    rfl

/-- Settles O12: the step notes what `State.hostRead` returns for a buffer byte. -/
theorem hostBufferRead : Obligations.HostBufferRead := by
  intro s b k rest hb hh
  rw [step_of_read hb hh, State.hostRead, State.setHost_byteAt]
  rfl

/-- So many turns of the latency pass. -/
def State.passTurns (s : State) (n : Nat) : State := { s with wait := s.wait - n }

/-- The block at a host turn: while BUSY = 1 the turn is one of the latency's (R194). -/
def State.atHostTurn (s : State) : State := s.passTurns s.busy.toNat

/-- When no completion is due, a step is the host's next access. -/
theorem step_of_not_due {s : State} {op : HostOp} {rest : List HostOp} (hwait : s.busy = true → 0 < s.wait)
    (hh : s.host = op :: rest) : step s = hostTurn op (s.atHostTurn.setHost rest) := by
  cases hb : s.busy
  · rw [step_of_host hb hh, State.atHostTurn, hb]
    rfl
  · rw [step_of_busy_host hb (hwait hb) hh, State.atHostTurn, hb]
    rfl

theorem locate_atHostTurn (s : State) (rest : List HostOp) (l : Loc) :
    (s.atHostTurn.setHost rest).locate l = s.locate l := by
  cases l <;> rfl

/-- Which access is made at a location is decided by what the location reaches. -/
theorem hostTurn_congr_locate {s : State} {l l' : Loc} (h : s.locate l = s.locate l') (v : Nat) :
    hostTurn (.write l v) s = hostTurn (.write l' v) s ∧ hostTurn (.read l) s = hostTurn (.read l') s := by
  rw [hostTurn, hostTurn, hostTurn, hostTurn, h]
  exact ⟨rfl, rfl⟩

/-- Settles O13: the two steps are host turns at one state, where both locations reach the target. -/
theorem mappedAccessIsTheDirectOne : Obligations.MappedAccessIsTheDirectOne := by
  intro s a v tg rest hwait htg
  have hturn : ∀ op, step (s.setHost (op :: rest)) = hostTurn op (s.atHostTurn.setHost rest) := fun op =>
    step_of_not_due (s := s.setHost (op :: rest)) hwait rfl
  have hloc : (s.atHostTurn.setHost rest).locate (.mapped a) = (s.atHostTurn.setHost rest).locate (.direct tg) := by
    rw [locate_atHostTurn, locate_atHostTurn]
    exact htg
  obtain ⟨hwrite, hread⟩ := hostTurn_congr_locate hloc v
  exact ⟨(hturn _).trans (hwrite.trans (hturn _).symm), (hturn _).trans (hread.trans (hturn _).symm)⟩

/-- Settles O17: with BUSY = 0 it is the host's turn, and the host's list is empty. -/
theorem idleBlockStays : Obligations.IdleBlockStays := by
  intro s hb hh
  rw [step, takeTurn, hb, if_neg Bool.false_ne_true, hh]

/-! ### The reset (R190, R192) -/

theorem byteAt_blockReset (s : State) (b : Buffer) (k : Nat) :
    s.blockReset.byteAt b k = Config.unwrittenByte (s.resets + 1) b k := by
  cases b <;> rfl

theorem slot_zero_of_mem_blockReset {s : State} {slot : FieldSlot} (h : slot ∈ s.blockReset.slots) :
    slot.desc = 0 ∧ slot.val = 0 := by
  rw [State.blockReset_slots] at h
  rw [List.eq_of_mem_replicate h]
  exact ⟨rfl, rfl⟩

/-- Settles O16: the step is `State.blockReset` with the host's list advanced. -/
theorem resetSetsEveryRegister : Obligations.ResetSetsEveryRegister := by
  intro s rest hwait hh
  exact ⟨_, step_of_not_due hwait hh, rfl, rfl, rfl, rfl, rfl, rfl, rfl, rfl, rfl, rfl, rfl, rfl, rfl,
    State.nfMax_blockReset _, fun slot => slot_zero_of_mem_blockReset, byteAt_blockReset _, rfl, rfl⟩

end Sys2Proof.Machine
end

section
/-! PROOFS. The two agents' turns (70_reset_and_hazards.md sections 2 and 3): completion, polling, and the busy hazard.
A poll only notes a value and lets a turn pass, so the engine is next after as many polls as the latency has turns. -/

namespace Sys2Proof.Machine

/-! ### Completion (R193, R194) -/

theorem engineStep_of_decode_ok {s : State} {i : Instr} (h : decode s.cw = .ok i) : engineStep s = exec i s := by
  rw [engineStep, h]

theorem engineStep_eq_finish (s : State) : ∃ r, engineStep s = .next (s.finish r) := by
  obtain ⟨i, -, hend⟩ | ⟨g, -, hend⟩ := engineStep_cases s
  · exact ⟨_, hend⟩
  · exact ⟨_, hend⟩

/-- Settles O47: with the latency run out the step is the engine's, which dispatches on the decoded word. -/
theorem stepRunsTheDecodedCommand : Obligations.StepRunsTheDecodedCommand := fun _ hb hw =>
  ⟨fun _ h => (step_of_engine hb hw).trans (engineStep_of_decode_ok h),
    fun _ h => (step_of_engine hb hw).trans (engineStep_of_decode_error h)⟩

/-- Settles O18: every command ends in `State.finish`. -/
theorem everyCommandCompletes : Obligations.EveryCommandCompletes := fun i s =>
  ⟨_, exec_eq_finish i s, State.finish_busy ..⟩

/-! ### Polls (R84, R197) -/

/-- STATUS has its number at every NF_MAX (R21). -/
theorem hostRead_statusTarget (s : State) : s.hostRead statusTarget = s.status.zeroExtend 64 := rfl

theorem hostTurn_wait_busy {s : State} (hb : s.busy = true) :
    hostTurn .wait s = .next ((s.noteRead (s.status.zeroExtend 64)).setHost (.wait :: s.host)) := by
  rw [hostTurn, if_pos hb, hostRead_statusTarget]
  rfl

theorem hostTurn_wait_idle {s : State} (hb : s.busy = false) :
    hostTurn .wait s = .next (s.noteRead (s.status.zeroExtend 64)) := by
  rw [hostTurn, hb, if_neg Bool.false_ne_true, hostRead_statusTarget]

theorem hostTurn_read_status {s : State} {l : Loc} (hl : s.locate l = some statusTarget) :
    hostTurn (.read l) s = .next (s.noteRead (s.status.zeroExtend 64)) := by
  simp only [hostTurn, hl, ne_eq, not_true_eq_false, and_false, if_false, hostRead_statusTarget]

theorem toNat_status_busy {s : State} (hb : s.busy = true) :
    (s.status.zeroExtend 64).toNat = 16 + (Config.busyErr s.reads).toNat := by
  rw [BitVec.toNat_setWidth_of_le (by decide), State.status, if_pos hb, toNat_statusWord]
  rfl

/-- Settles O48: the step is the host turn of the poll, with a turn of the latency passed. -/
theorem pollingWhileBusy : Obligations.PollingWhileBusy := by
  rintro s rest hb hw (hh | hh)
  · refine ⟨_, (step_of_busy_host hb hw hh).trans (hostTurn_wait_busy hb), toNat_status_busy hb, ?_, rfl⟩
    rw [if_pos hh]
    rfl
  · refine ⟨_, (step_of_busy_host hb hw hh).trans (hostTurn_read_status rfl), toNat_status_busy hb, ?_, rfl⟩
    rw [hh, if_neg (by simp [hostRd])]
    rfl

/-! ### The busy hazard (R195, R197) -/

/-- The accesses the busy rule forbids: those to the block other than a read of STATUS. -/
def State.Forbids (s : State) : HostOp → Prop
  | .write l _ => ∃ tg, s.locate l = some tg
  | .read l => ∃ tg, s.locate l = some tg ∧ tg ≠ statusTarget
  | .wait | .reset => False

theorem forbids_iff (s : State) (op : HostOp) :
    s.Forbids op ↔ ∃ tg, (∃ l v, op = .write l v ∧ s.locate l = some tg) ∨
      ∃ l, op = .read l ∧ s.locate l = some tg ∧ tg ≠ statusTarget := by
  cases op <;> simp [State.Forbids]

theorem hostTurn_of_forbids {op : HostOp} {s : State} (hb : s.busy = true) (h : s.Forbids op) :
    hostTurn op s = .refused .busyHazard := by
  cases op with
  | write l v =>
    obtain ⟨tg, hl⟩ := h
    simp only [hostTurn, hl, hb, if_true]
  | read l =>
    obtain ⟨tg, hl, hne⟩ := h
    simp only [hostTurn, hl]
    exact if_pos ⟨hb, hne⟩
  | wait | reset => exact h.elim

theorem hostTurn_goes_on {op : HostOp} {s : State} (h : s.busy = true → ¬ s.Forbids op) :
    ∃ t, hostTurn op s = .next t := by
  cases op with
  | write l v =>
    cases hl : s.locate l with
    | none => exact ⟨s, by simp only [hostTurn, hl]⟩
    | some tg =>
      have hb : s.busy = false := Bool.eq_false_iff.2 fun hb => h hb ⟨tg, hl⟩
      exact ⟨_, hostTurn_write hb hl v⟩
  | read l =>
    cases hl : s.locate l with
    | none => exact ⟨s, by simp only [hostTurn, hl]⟩
    | some tg =>
      have hfree : ¬ (s.busy = true ∧ tg ≠ statusTarget) := fun ⟨hb, hne⟩ => h hb ⟨tg, hl, hne⟩
      exact ⟨_, by simp only [hostTurn, hl]; exact if_neg hfree⟩
  | wait =>
    cases hb : s.busy
    · exact ⟨_, hostTurn_wait_idle hb⟩
    · exact ⟨_, hostTurn_wait_busy hb⟩
  | reset => exact ⟨_, rfl⟩

/-- The host's next access breaks the busy rule. -/
def State.BusyHazard (s : State) : Prop :=
  s.busy = true ∧ 0 < s.wait ∧ ∃ op rest, s.host = op :: rest ∧ s.Forbids op

/-- What the host may not do is the same at its turn. -/
theorem forbids_atHostTurn (s : State) (rest : List HostOp) (op : HostOp) :
    (s.atHostTurn.setHost rest).Forbids op ↔ s.Forbids op := by
  cases op with
  | write l v => simp only [State.Forbids, locate_atHostTurn]
  | read l => simp only [State.Forbids, locate_atHostTurn]
  | wait | reset => exact .rfl

theorem step_of_busyHazard {s : State} (h : s.BusyHazard) : step s = .refused .busyHazard := by
  obtain ⟨hb, hw, op, rest, hh, hop⟩ := h
  rw [step_of_not_due (fun _ => hw) hh]
  exact hostTurn_of_forbids hb ((forbids_atHostTurn s rest op).2 hop)

/-- With nothing on the host's list only the turn passes. -/
theorem step_of_silent {s : State} (hwait : s.busy = true → 0 < s.wait) (hh : s.host = []) :
    step s = .next s.atHostTurn := by
  cases hb : s.busy
  · rw [idleBlockStays s hb hh, State.atHostTurn, hb]
    rfl
  · have hw := hwait hb
    rw [step, takeTurn, if_pos hb, if_neg (by omega), hh, State.atHostTurn, hb]
    rfl

theorem stepsOn_of_not_busyHazard {s : State} (h : ¬ s.BusyHazard) : s.StepsOn := by
  by_cases hdue : s.busy = true ∧ s.wait = 0
  · obtain ⟨r, hend⟩ := engineStep_eq_finish s
    exact ⟨_, (step_of_engine hdue.1 hdue.2).trans hend⟩
  · have hwait : s.busy = true → 0 < s.wait := fun hb => Nat.pos_of_ne_zero fun hw => hdue ⟨hb, hw⟩
    cases hh : s.host with
    | nil => exact ⟨_, step_of_silent hwait hh⟩
    | cons op rest =>
      rw [State.StepsOn, step_of_not_due hwait hh]
      exact hostTurn_goes_on fun hb hop =>
        h ⟨hb, hwait hb, op, rest, hh, (forbids_atHostTurn s rest op).1 hop⟩

theorem busyHazard_iff (s : State) :
    s.BusyHazard ↔ s.busy = true ∧ 0 < s.wait ∧
      ∃ op rest tg, s.host = op :: rest ∧
        ((∃ l v, op = .write l v ∧ s.locate l = some tg) ∨
         (∃ l, op = .read l ∧ s.locate l = some tg ∧ tg ≠ .reg 0x01)) := by
  simp only [State.BusyHazard, forbids_iff, exists_and_left]
  rfl

/-- Settles O49: a step is refused at a busy hazard, for that reason, and goes on everywhere else. -/
theorem refusedExactlyOnTheBusyHazard : Obligations.RefusedExactlyOnTheBusyHazard := by
  intro s
  rw [← busyHazard_iff]
  by_cases hhazard : s.BusyHazard
  · rw [step_of_busyHazard hhazard]
    exact ⟨fun _ h => (Host.Outcome.refused.inj h).symm, iff_of_true rfl hhazard⟩
  · obtain ⟨t, hnext⟩ := stepsOn_of_not_busyHazard hhazard
    rw [hnext]
    exact ⟨fun _ h => (nomatch h), iff_of_false (fun h => nomatch h) hhazard⟩

/-- Settles O50: a host that keeps the busy rule is at no busy hazard. -/
theorem disciplinedHostStepsOn : Obligations.DisciplinedHostStepsOn := by
  refine fun s hrule => stepsOn_of_not_busyHazard fun ⟨hb, hw, op, rest, hh, hop⟩ => ?_
  have hnext := hrule hb hw
  rw [hh] at hnext
  cases op with
  | write l v =>
    obtain ⟨tg, hl⟩ := hop
    exact Option.some_ne_none tg (hl.symm.trans hnext)
  | read l =>
    obtain ⟨tg, hl, hne⟩ := hop
    obtain hnone | hstatus := hnext
    · exact Option.some_ne_none tg (hl.symm.trans hnone)
    · exact hne (Option.some.inj (hl.symm.trans hstatus))
  | wait | reset => exact hop

/-! ### Poll loops (R194) -/

/-- The block after `n` polls made while BUSY = 1, the last of which returned `v`, with `rest` still to come. -/
def State.polled (s : State) (n : Nat) (v : BitVec 64) (rest : List HostOp) : State :=
  { s with wait := s.wait - n, reads := s.reads + n, rdata := v, host := rest }

theorem polled_polled (s : State) (m n : Nat) (u v : BitVec 64) (ops rest : List HostOp) :
    (s.polled m u ops).polled n v rest = s.polled (m + n) v rest := by
  simp only [State.polled, Nat.sub_sub, Nat.add_assoc]

/-- A WAIT stays on the list until it has read BUSY = 0 (R84). -/
theorem step_of_wait {s : State} {rest : List HostOp} (hb : s.busy = true) (hw : 0 < s.wait)
    (hh : s.host = .wait :: rest) : step s = .next (s.polled 1 (s.status.zeroExtend 64) (.wait :: rest)) :=
  (step_of_busy_host hb hw hh).trans (hostTurn_wait_busy hb)

theorem step_of_read_status {s : State} {l : Loc} {rest : List HostOp} (hb : s.busy = true) (hw : 0 < s.wait)
    (hh : s.host = .read l :: rest) (hl : s.locate l = some statusTarget) :
    step s = .next (s.polled 1 (s.status.zeroExtend 64) rest) :=
  (step_of_busy_host hb hw hh).trans (hostTurn_read_status ((locate_atHostTurn s rest l).trans hl))

/-- A WAIT reads STATUS for the whole latency. -/
theorem run_of_wait {s : State} {rest : List HostOp} {n : Nat} (hb : s.busy = true) (hw : s.wait = n)
    (hh : s.host = .wait :: rest) (k : Nat) :
    ∃ v, core.run (n + k) s = core.run k (s.polled n v (.wait :: rest)) := by
  induction n generalizing s with
  | zero =>
    refine ⟨s.rdata, ?_⟩
    rw [Nat.zero_add, State.polled, ← hh]
    rfl
  | succ n ih =>
    have hstep := step_of_wait hb (by omega) hh
    obtain ⟨v, hrun⟩ := ih (s := s.polled 1 (s.status.zeroExtend 64) (.wait :: rest)) hb
      (by simp only [State.polled]; omega) rfl
    refine ⟨v, ?_⟩
    rw [Nat.add_right_comm, run_of_next hstep, hrun, polled_polled, Nat.add_comm 1 n]

theorem status_idle {s : State} (hb : s.busy = false) : s.status = statusWord false (errCode s.err) := by
  rw [State.status, hb, if_neg Bool.false_ne_true]

theorem zeroExtend_statusWord_idle (err : BitVec 4) : (statusWord false err).zeroExtend 64 = err.zeroExtend 64 := by
  apply BitVec.eq_of_toNat_eq
  rw [BitVec.toNat_setWidth_of_le (by decide), BitVec.toNat_setWidth_of_le (by decide), toNat_statusWord]
  simp

/-- The engine's completion, then the read that ends a WAIT. -/
theorem run_two_of_wait {s c : State} {rest : List HostOp} (hb : s.busy = true) (hw : s.wait = 0)
    (hh : s.host = .wait :: rest) (hend : engineStep s = .next c) :
    core.run 2 s =
      .next { c with host := rest, reads := c.reads + 1, rdata := (errCode c.err).zeroExtend 64 } := by
  obtain ⟨r, hr⟩ := engineStep_eq_finish s
  obtain rfl := Host.Outcome.next.inj (hr.symm.trans hend)
  have hidle : (s.finish r).busy = false := State.finish_busy s r
  have hwait := (step_of_host hidle ((State.finish_host s r).trans hh)).trans (hostTurn_wait_idle hidle)
  rw [run_of_next ((step_of_engine hb hw).trans hend), run_of_next hwait, State.setHost_status, status_idle hidle,
    zeroExtend_statusWord_idle]
  rfl

/-- While the host only polls, or makes no access at all, the latency runs out and the command completes. -/
theorem run_of_polls {n : Nat} {s : State} {polls rest : List HostOp} (hb : s.busy = true) (hw : s.wait = n)
    (hh : s.host = polls ++ rest) (hpolls : ∀ op ∈ polls, s.Polls op) (hlong : n ≤ polls.length ∨ rest = []) :
    ∃ t, core.run (n + 1) s = .next t ∧ t.busy = false := by
  induction n generalizing s polls with
  | zero =>
    obtain ⟨r, hend⟩ := engineStep_eq_finish s
    exact ⟨s.finish r, run_of_next ((step_of_engine hb hw).trans hend) 0, State.finish_busy s r⟩
  | succ n ih =>
    have hpos : 0 < s.wait := by omega
    have hwait : s.wait - 1 = n := by omega
    cases polls with
    | nil =>
      obtain rfl : rest = [] := hlong.resolve_left (Nat.not_succ_le_zero n)
      rw [run_of_next (step_of_silent (fun _ => hpos) hh)]
      refine ih (polls := []) hb ?_ hh hpolls (.inr rfl)
      rw [State.atHostTurn, hb]
      exact hwait
    | cons op polls =>
      obtain ⟨hop, htail⟩ := List.forall_mem_cons.1 hpolls
      obtain rfl | ⟨l, rfl, hl⟩ := hop
      · rw [run_of_next (step_of_wait hb hpos hh)]
        exact ih (polls := .wait :: polls) hb hwait rfl hpolls (hlong.imp_left Nat.le_of_succ_le)
      · rw [run_of_next (step_of_read_status hb hpos hh hl)]
        exact ih (polls := polls) hb hwait rfl htail (hlong.imp_left Nat.le_of_succ_le_succ)

/-- Settles O51: a WAIT lets the latency run out, the command completes, and the WAIT reads BUSY = 0. -/
theorem pollingEnds : Obligations.PollingEnds := by
  refine ⟨fun s rest hb hh => ?_, fun s polls rest hb hh hpolls hlong => run_of_polls hb rfl hh hpolls hlong⟩
  obtain ⟨v, hrun⟩ := run_of_wait hb rfl hh 2
  obtain ⟨r, hend⟩ := engineStep_eq_finish (s.polled s.wait v (.wait :: rest))
  rw [hrun, run_two_of_wait (s := s.polled s.wait v (.wait :: rest)) hb (Nat.sub_self s.wait) rfl hend]
  exact ⟨_, rfl, State.finish_busy _ r, rfl⟩

/-! ### The collapsed command (R195) -/

/-- The state with another host's side: the latencies, the accesses to come, and the reads made. -/
def State.withHostSide (s : State) (latency : List Nat) (host : List HostOp) (rdata : BitVec 64) (reads : Nat) :
    State :=
  { s with latency := latency, host := host, rdata := rdata, reads := reads }

theorem finish_withHostSide (s : State) (r : Except Err Output) (latency : List Nat) (host : List HostOp)
    (rdata : BitVec 64) (reads : Nat) :
    (s.withHostSide latency host rdata reads).finish r = (s.finish r).withHostSide latency host rdata reads := by
  cases r <;> rfl

theorem commandOutput_withHostSide (i : Instr) (s : State) (latency : List Nat) (host : List HostOp)
    (rdata : BitVec 64) (reads : Nat) :
    commandOutput i (s.withHostSide latency host rdata reads) = commandOutput i s := by
  cases i <;> rfl

/-- No command reads the host's side, and no completion writes it. -/
theorem engineStep_withHostSide {s c : State} (h : engineStep s = .next c) (latency : List Nat) (host : List HostOp)
    (rdata : BitVec 64) (reads : Nat) :
    engineStep (s.withHostSide latency host rdata reads) = .next (c.withHostSide latency host rdata reads) := by
  obtain ⟨i, hdecode, hend⟩ | ⟨g, hdecode, hend⟩ := engineStep_cases s
  · obtain rfl := Host.Outcome.next.inj (hend.symm.trans h)
    rw [engineStep_of_decode_ok (s := s.withHostSide latency host rdata reads) hdecode, exec_eq_finish,
      commandOutput_withHostSide, finish_withHostSide]
  · obtain rfl := Host.Outcome.next.inj (hend.symm.trans h)
    exact engineStep_of_decode_error (s := s.withHostSide latency host rdata reads) hdecode

/-- The state in which the merged step completes a word (R195). -/
def State.merged (s : State) (w : CmdWord) : State := { s with cw := w, busy := true, wait := 0 }

theorem polled_issue (s : State) (w : CmdWord) (v : BitVec 64) (ops rest : List HostOp) :
    ((s.setHost ops).issue w).polled (s.latency.headD 0) v rest =
      (s.merged w).withHostSide s.latency.tail rest v (s.reads + s.latency.headD 0) := by
  simp only [State.polled, State.issue_wait, State.setHost_latency, Nat.sub_self]
  rfl

/-- Settles O52: the write issues the command, the WAIT lets its latency run out, and the engine's completion does not
see the host's side. -/
theorem collapsedCommandIsExact : Obligations.CollapsedCommandIsExact := by
  intro s v rest hb hh n
  obtain ⟨r, hend⟩ := engineStep_eq_finish (s.merged (BitVec.ofNat 16 v))
  refine ⟨_, hend, ?_⟩
  obtain ⟨u, hrun⟩ := run_of_wait (s := (s.setHost (.wait :: rest)).issue (BitVec.ofNat 16 v)) rfl rfl rfl 2
  have hend' := engineStep_withHostSide hend s.latency.tail (.wait :: rest) u (s.reads + n)
  calc core.run (n + 3) s
      = core.run (n + 2) ((s.setHost (.wait :: rest)).issue (BitVec.ofNat 16 v)) :=
        run_of_next (step_of_hostWr hb (regAt_cmd _) hh) (n + 2)
    _ = core.run 2 (((s.setHost (.wait :: rest)).issue (BitVec.ofNat 16 v)).polled n u (.wait :: rest)) := hrun
    _ = core.run 2 ((s.merged (BitVec.ofNat 16 v)).withHostSide s.latency.tail (.wait :: rest) u (s.reads + n)) := by
        rw [polled_issue]
    _ = _ := run_two_of_wait rfl rfl rfl hend'

end Sys2Proof.Machine
end

section
/-! PROOFS. What every command does (10_state.md section 6, 30_encoding.md section 3): its frame, what its outcome
depends on, and how a command that raises nothing ends. -/

namespace Sys2Proof.Machine

/-! ### The ends of a command (R41, R162) -/

theorem sameButOutputs_finish (s : State) (r : Except Err Output) : s.SameButOutputs (s.finish r) := by
  cases r <;> rfl

@[simp] theorem byteAt_errorAbort (s : State) (e : Err) (b : Buffer) (k : Nat) :
    (s.errorAbort e).byteAt b k = s.byteAt b k := by
  cases b <;> rfl

/-- A command that raises nothing completes with its output, if OLEN can count it. -/
theorem completesWith_succeed (s : State) {o : Output} (hlen : o.bytes.length < 2 ^ 16) :
    s.CompletesWith (s.succeed o) o.bytes o.result where
  frame := sameButOutputs_finish s (.ok o)
  err := rfl
  busy := rfl
  olen := Nat.mod_eq_of_lt hlen
  result := rfl
  output := fun _ hk => byteAt_succeed_inside s o hk
  rest := fun _ hk => byteAt_succeed_outside s o hk

theorem exists_completesWith {i : Instr} {s : State} {bytes : List Byte} {result : ValueWord}
    (hout : commandOutput i s = .ok ⟨bytes, result⟩) (hlen : bytes.length < 2 ^ 16) :
    ∃ t, exec i s = .next t ∧ s.CompletesWith t bytes result := by
  refine ⟨_, exec_eq_finish i s, ?_⟩
  rw [hout]
  exact completesWith_succeed s hlen

theorem exec_of_error {i : Instr} {s : State} {e : Err} (hout : commandOutput i s = .error e) :
    exec i s = .next (s.aborted e) := by
  rw [exec_eq_finish, hout, State.finish_error, errorAbort_eq_aborted]

theorem commandOutput_packInt (w : Width) (ord : ByteOrder) (sgn : Signedness) (s : State) :
    commandOutput (.packInt w ord sgn) s = packOutput (.int w ord sgn) s := by
  cases w <;> rfl

theorem commandOutput_unpackInt (w : Width) (ord : ByteOrder) (sgn : Signedness) (s : State) :
    commandOutput (.unpackInt w ord sgn) s = unpackOutput w ord sgn s := by
  cases w <;> rfl

/-! ### The frame (R38, R41, R52) -/

theorem bytes_eq_nil_of_unpack_or_cksum {i : Instr} {s : State} {o : Output}
    (hi : (∃ w ord sgn, i = .unpackInt w ord sgn) ∨ i = .cksum) (h : commandOutput i s = .ok o) : o.bytes = [] := by
  obtain ⟨w, ord, sgn, rfl⟩ | rfl := hi
  · exact unpackOutput_bytes ((commandOutput_unpackInt w ord sgn s).symm.trans h)
  · exact cksumOutput_bytes h

/-- Settles O19: an error writes no buffer, and a success writes the output bytes, which OLEN counts. -/
theorem commandFrame : Obligations.CommandFrame := by
  intro i s t hwf hexec
  rw [exec_eq_finish, Host.Outcome.next.injEq] at hexec
  subst hexec
  refine ⟨sameButOutputs_finish s _, fun k => (byteAt_finish_ibuf s _ k).symm, ?_⟩
  cases hout : commandOutput i s with
  | error e =>
    have hsame := byteAt_errorAbort s e .obuf
    exact ⟨fun k _ => hsame k, fun _ => hsame, fun _ => hsame⟩
  | ok o =>
    have ⟨hmin, _⟩ := of_decide_eq_true hwf
    have holen := toNat_olen_succeed hwf (commandOutput_fits hmin hout)
    refine ⟨fun k hk => byteAt_succeed_outside s o (holen ▸ hk), fun herr => absurd rfl herr, fun hi k => ?_⟩
    have hnil := bytes_eq_nil_of_unpack_or_cksum hi hout
    exact byteAt_succeed_outside s o (by simp [hnil])

/-! ### What the outcome depends on (R79) -/

/-- Settles O22: the output depends on the operands only (`commandOutput_congr`), and the outcome is the output. -/
theorem outcomeDependsOnOperandsOnly : Obligations.OutcomeDependsOnOperandsOnly := by
  intro i s s' t t' _ hsame hexec hexec'
  rw [exec_eq_finish, Host.Outcome.next.injEq] at hexec hexec'
  subst hexec hexec'
  rw [← commandOutput_congr hsame]
  cases commandOutput i s with
  | error e => exact ⟨rfl, rfl, rfl, fun k hk => absurd hk (Nat.not_lt_zero k)⟩
  | ok o =>
    refine ⟨rfl, rfl, rfl, fun k hk => ?_⟩
    have hlt : k < o.bytes.length := hk.trans_le (toNat_olen_succeed_le s o)
    exact (byteAt_succeed_inside s o hlt).trans (byteAt_succeed_inside s' o hlt).symm

end Sys2Proof.Machine
end

section
/-! PROOFS. The bytes of a field as bits of its value register (40_integer_codec.md, 42_bus_frame_codec.md section 1),
and the completions of PACK, UNPACK and CKSUM. -/

namespace Sys2Proof.Machine

/-! ### Bytes of a register (R90, R95, R55) -/

/-- The low bits of a register's integer are the register's low bits. -/
theorem toNat_toInt_emod (v : ValueWord) {n : Nat} (h : n ≤ 64) : (v.toInt % 2 ^ n).toNat = v.toNat % 2 ^ n := by
  have hdvd : (2 : Int) ^ n ∣ (2 ^ 64 : Nat) := by exact_mod_cast pow_dvd_pow 2 h
  rw [← Int.emod_emod_of_dvd _ hdvd, BitVec.toInt_eq_toNat_bmod, Int.bmod_emod, Int.emod_emod_of_dvd _ hdvd]
  norm_cast

/-- Bits `b` to `b + c - 1` of a number do not depend on the bits from `a` on. -/
theorem mod_shiftRight_mod (U : Nat) {a b c : Nat} (h : b + c ≤ a) :
    ((U % 2 ^ a) >>> b) % 2 ^ c = (U >>> b) % 2 ^ c := by
  apply Nat.eq_of_testBit_eq
  intro i
  simp only [Nat.testBit_mod_two_pow, Nat.testBit_shiftRight]
  by_cases hi : i < c
  · simp [show b + i < a by omega]
  · simp [hi]

theorem fieldValueBytes_toInt (v : ValueWord) (w : Width) (ord : ByteOrder) :
    fieldValueBytes v.toInt w ord = registerBytes v w.bytes (ord = .be) := by
  have hle : leBytes (v.toInt % 2 ^ (8 * w.bytes)).toNat w.bytes =
      (List.range w.bytes).map fun j => v.extractLsb' (8 * j) 8 := by
    have hw := width_bytes_le w
    rw [toNat_toInt_emod v (by omega)]
    refine List.ext_getElem (by simp) fun j hj _ => BitVec.eq_of_toNat_eq ?_
    rw [length_leBytes] at hj
    rw [getElem_leBytes, BitVec.toNat_ofNat, mod_shiftRight_mod _ (by omega), List.getElem_map, List.getElem_range,
      BitVec.extractLsb'_toNat]
  rw [fieldValueBytes, hle]
  cases ord <;> rfl

theorem ofNat_low_byte (v : ValueWord) : BitVec.ofNat 8 (v.toNat % 2 ^ 12 &&& 0xFF) = v.extractLsb' 0 8 := by
  apply BitVec.eq_of_toNat_eq
  rw [show (0xFF : Nat) = 2 ^ 8 - 1 from rfl, Nat.and_two_pow_sub_one_eq_mod, BitVec.toNat_ofNat, Nat.mod_mod,
    BitVec.extractLsb'_toNat, ← mod_shiftRight_mod (b := 0) _ (by decide : 0 + 8 ≤ 12)]
  rfl

theorem ofNat_speed_high_byte (v : ValueWord) (d : Bool) :
    BitVec.ofNat 8 (((v.toNat % 2 ^ 12) >>> 8) ||| (d.toNat <<< 7)) =
      BitVec.ofBool d ++ 0#3 ++ v.extractLsb' 8 4 := by
  have hspeed : (v.toNat % 2 ^ 12) >>> 8 = (v.extractLsb' 8 4).toNat := by
    rw [BitVec.extractLsb'_toNat, ← mod_shiftRight_mod _ (by decide : 8 + 4 ≤ 12), Nat.shiftRight_eq_div_pow]
    omega
  have htop : (BitVec.ofBool d ++ 0#3).toNat = 2 ^ 3 * d.toNat := by cases d <;> rfl
  have hlt := (v.extractLsb' 8 4).isLt
  have hd := Bool.toNat_lt d
  have hor : 2 ^ 7 * d.toNat + (v.extractLsb' 8 4).toNat = 2 ^ 7 * d.toNat ||| (v.extractLsb' 8 4).toNat :=
    Nat.two_pow_add_eq_or_of_lt (by omega) d.toNat
  apply BitVec.eq_of_toNat_eq
  rw [BitVec.toNat_ofNat, BitVec.toNat_append, htop, hspeed, Nat.or_comm, Nat.shiftLeft_eq, Nat.shiftLeft_eq,
    Nat.mul_comm d.toNat, Nat.mul_right_comm, ← pow_add, ← hor]
  omega

/-- The bytes of a field as bits of the register. -/
def fieldRegisterBytes : FieldForm → ValueWord → List Byte
  | .int w ord _, v => registerBytes v w.bytes (ord = .be)
  | .spd d, v => speedBytes v d

theorem fieldBytes_eq_ok {f : FieldForm} {v : ValueWord} {strict : Bool} (h : strict = true → FieldAdmits f v.toInt) :
    fieldBytes f v.toInt strict = .ok (fieldRegisterBytes f v) := by
  cases f with
  | int w ord sgn =>
    obtain ⟨hs, hout, -⟩ | ⟨-, hok⟩ := intPack_cases v.toInt w ord sgn strict
    · rw [(inRange_iff ..).2 (h hs)] at hout
      cases hout
    · exact hok.trans (congrArg _ (fieldValueBytes_toInt v w ord))
  | spd d =>
    obtain ⟨hs, hout, -⟩ | ⟨-, hok⟩ := spdirPack_cases v.toInt d strict
    · exact absurd (h hs) hout
    · refine hok.trans (congrArg _ ?_)
      rw [show (4096 : Int) = 2 ^ 12 from rfl, toNat_toInt_emod v (by decide), ofNat_low_byte, ofNat_speed_high_byte]
      rfl

/-! ### PACK (R92, R93, R131) -/

@[simp] theorem length_registerBytes (v : ValueWord) (n : Nat) (big : Bool) : (registerBytes v n big).length = n := by
  cases big <;> simp [registerBytes]

theorem length_fieldRegisterBytes_le (f : FieldForm) (v : ValueWord) : (fieldRegisterBytes f v).length ≤ 6 := by
  cases f with
  | int w ord sgn => exact (length_registerBytes ..).trans_le (width_bytes_le w)
  | spd d => simp [fieldRegisterBytes, speedBytes]

theorem commandOutput_packField (f : FieldForm) (s : State) : commandOutput (.packField f) s = packOutput f s := by
  cases f with
  | int w ord sgn => exact commandOutput_packInt w ord sgn s
  | spd d => rfl

/-- A PACK whose value the field admits, or in truncate mode, completes with the field's bits of VALUE. -/
theorem packField_completes {s : State} (f : FieldForm) (h : s.strict = true → FieldAdmits f s.value.toInt) :
    ∃ t, exec (.packField f) s = .next t ∧ s.CompletesWith t (fieldRegisterBytes f s.value) 0 := by
  refine exists_completesWith ?_ ((length_fieldRegisterBytes_le f s.value).trans_lt (by decide))
  rw [commandOutput_packField, packOutput, sval64, fieldBytes_eq_ok h]

theorem packField_raises_range {s : State} (f : FieldForm) (hs : s.strict = true)
    (h : ¬ FieldAdmits f s.value.toInt) : exec (.packField f) s = .next (s.aborted .range) := by
  refine exec_of_error ?_
  obtain ⟨-, herr⟩ | ⟨hin, -⟩ := fieldBytes_raisesIff f s.value.toInt s.strict
  · rw [commandOutput_packField, packOutput, sval64, herr]
  · exact absurd ⟨hs, h⟩ hin

/-- Settles O23 (`packField_completes`). -/
theorem packIntegerCompletes : Obligations.PackIntegerCompletes := fun _ w ord sgn =>
  packField_completes (.int w ord sgn)

/-- Settles O24 (`packField_raises_range`). -/
theorem strictPackRaisesRange : Obligations.StrictPackRaisesRange := fun _ w ord sgn =>
  packField_raises_range (.int w ord sgn)

/-- Settles O25: the speed+direction field is one of the fields of PACK. -/
theorem packSpeedField : Obligations.PackSpeedField := fun _ dir =>
  ⟨packField_completes (.spd dir), packField_raises_range (.spd dir)⟩

/-- Settles O32: a field of one byte is packed to, and read from, a list of one byte, which is its own reverse. -/
theorem oneByteFieldsHaveOneOrder : Obligations.OneByteFieldsHaveOneOrder := fun _ _ => ⟨rfl, rfl⟩

/-! ### UNPACK (R91, R97) -/

/-- Bit `b` of the number a byte list holds is a bit of byte `b / 8`. -/
theorem testBit_leNat (bs : List Byte) {j i : Nat} (hj : j < bs.length) (hi : i < 8) :
    (leNat bs).testBit (8 * j + i) = bs[j].getLsbD i := by
  induction bs generalizing j with
  | nil => exact absurd hj (Nat.not_lt_zero j)
  | cons b bs ih =>
    have hcons : leNat (b :: bs) = 2 ^ 8 * leNat bs + b.toNat := Nat.add_comm ..
    rw [hcons, Nat.testBit_two_pow_mul_add _ b.isLt]
    cases j with
    | zero =>
      rw [if_pos (by omega)]
      simp [BitVec.getLsbD]
    | succ j =>
      rw [if_neg (by omega), List.getElem_cons_succ, ← ih (Nat.lt_of_succ_lt_succ hj)]
      congr 1
      omega

theorem getElem_inOrder {ord : ByteOrder} {w : Width} {bs : List Byte} (h : bs.length = w.bytes) {j : Nat}
    (hj : j < (inOrder ord bs).length) (hplace : bytePlace w ord j < bs.length) :
    (inOrder ord bs)[j] = bs[bytePlace w ord j] := by
  cases ord with
  | le => rfl
  | be => simp [inOrder, bytePlace, h]

/-- `int_unpack` of a signed field is the two's complement reading of the field's number. -/
theorem intUnpack_signed {bs : List Byte} {w : Width} (ord : ByteOrder) (h : bs.length = w.bytes) :
    intUnpack bs w ord .signed = (BitVec.ofNat (8 * w.bytes) (leNat (inOrder ord bs))).toInt := by
  have hlt : leNat (inOrder ord bs) < 2 ^ (8 * w.bytes) := by exact_mod_cast leNat_inOrder_lt ord h
  have htwo : 2 ^ (8 * w.bytes) = 2 * 2 ^ (8 * w.bytes - 1) := by
    exact_mod_cast two_pow_eq_two_mul_pred (width_bits_pos w)
  rw [BitVec.toInt_eq_toNat_cond, BitVec.toNat_ofNat, Nat.mod_eq_of_lt hlt]
  simp only [intUnpack]
  by_cases hge : 2 ^ (8 * w.bytes - 1) ≤ leNat (inOrder ord bs)
  · rw [if_pos hge, if_neg (by omega)]
    push_cast
    rfl
  · rw [if_neg hge, if_pos (by omega)]

/-- The bits of RESULT after an UNPACK: the field's, and above them zeros or copies of its top bit. -/
theorem getLsbD_ofInt_intUnpack {bs : List Byte} {w : Width} (ord : ByteOrder) (sgn : Signedness)
    (h : bs.length = w.bytes) {b : Nat} (hb : b < 64) :
    (BitVec.ofInt 64 (intUnpack bs w ord sgn)).getLsbD b =
      if b < 8 * w.bytes then (leNat (inOrder ord bs)).testBit b
      else decide (sgn = .signed) && (leNat (inOrder ord bs)).testBit (8 * w.bytes - 1) := by
  have hlt : leNat (inOrder ord bs) < 2 ^ (8 * w.bytes) := by exact_mod_cast leNat_inOrder_lt ord h
  cases sgn with
  | unsigned =>
    have hbit : (BitVec.ofInt 64 (intUnpack bs w ord .unsigned)).getLsbD b = (leNat (inOrder ord bs)).testBit b := by
      simp only [intUnpack, BitVec.ofInt_natCast, BitVec.getLsbD_ofNat, hb, decide_true, Bool.true_and]
    rw [hbit]
    split
    · rfl
    · exact Nat.testBit_lt_two_pow (hlt.trans_le (Nat.pow_le_pow_right (by decide) (by omega)))
  | signed =>
    have hpos := width_bits_pos w
    rw [intUnpack_signed ord h, ← BitVec.signExtend, BitVec.getLsbD_signExtend, BitVec.msb_eq_getLsbD_last]
    simp only [hb, decide_true, Bool.true_and, BitVec.getLsbD_ofNat]
    split
    · rename_i hlow
      simp [hlow]
    · simp [hpos]

/-- Byte `j` of a field read from IBUF, bit by bit. -/
theorem testBit_leNat_memRead (s : State) (w : Width) (ord : ByteOrder) {j i : Nat} (hj : j < w.bytes) (hi : i < 8) :
    (leNat (inOrder ord (s.memRead .ibuf s.offset.toNat w.bytes))).testBit (8 * j + i) =
      (s.byteAt .ibuf (s.offset.toNat + bytePlace w ord j)).getLsbD i := by
  have hplace : bytePlace w ord j < w.bytes := by
    cases ord with
    | le => exact hj
    | be => simp only [bytePlace]; omega
  rw [testBit_leNat _ (by simpa using hj) hi, getElem_inOrder (length_memRead ..) _ (by simpa using hplace),
    getElem_memRead]

/-- Settles O26: the checks pass, and the bits of RESULT are those of `getLsbD_ofInt_intUnpack`. -/
theorem unpackIntegerCompletes : Obligations.UnpackIntegerCompletes := by
  intro s w ord sgn hcap hend
  have hlen := length_memRead s .ibuf s.offset.toNat w.bytes
  have hw := width_bytes_le w
  have hpos := width_bytes_pos w
  have hout := (commandOutput_unpackInt w ord sgn s).trans (unpackOutput_within ord sgn hcap hend)
  obtain ⟨t, hexec, hcompletes⟩ := exists_completesWith hout (by simp)
  refine ⟨t, hexec, hcompletes.result.symm ▸ hcompletes, fun j hj => ?_, fun b hlow hb => ?_⟩
  · apply BitVec.eq_of_getLsbD_eq
    intro i hi
    rw [hcompletes.result, BitVec.getLsbD_extractLsb', getLsbD_ofInt_intUnpack ord sgn hlen (by omega),
      if_pos (by omega), testBit_leNat_memRead s w ord hj hi]
    simp [hi]
  · have htop : 8 * w.bytes - 1 = 8 * (w.bytes - 1) + 7 := by omega
    rw [hcompletes.result, getLsbD_ofInt_intUnpack ord sgn hlen hb, if_neg (by omega), htop,
      testBit_leNat_memRead s w ord (by omega) (by decide)]

end Sys2Proof.Machine
end

section
/-! PROOFS. The completions of SBENC and SBDEC (41_sevenbit_codec.md) and of CKSUM, BUILD and PARSE
(42_bus_frame_codec.md). -/

namespace Sys2Proof.Machine

/-! ### SBENC (R110, R113) -/

theorem sbHigh_eq_ite (p : Byte) : sbHigh p = if p.getLsbD 7 then 1#8 else 0#8 := by
  have hp := p.isLt
  apply BitVec.eq_of_toNat_eq
  rw [toNat_sbHigh, getLsbD_eq_decide]
  by_cases h : p.toNat / 2 ^ 7 % 2 = 1
  · simp only [h, decide_true, if_true, BitVec.toNat_ofNat]
    omega
  · simp only [h, decide_false, Bool.false_eq_true, if_false, BitVec.toNat_ofNat]
    omega

/-- The encoder over the bytes of a read, byte by byte. -/
theorem sbEncode_memRead (s : State) (n : Nat) :
    sbEncode (s.memRead .ibuf 0 n) =
      (List.range n).flatMap fun j =>
        [s.byteAt .ibuf j &&& 0x7F#8, if (s.byteAt .ibuf j).getLsbD 7 then 1#8 else 0#8] := by
  have hpair : ∀ p : Byte, [p &&& 0x7F#8, (p &&& 0x80#8) >>> (7 : Nat)] =
      [p &&& 0x7F#8, if p.getLsbD 7 then 1#8 else 0#8] := fun p => by rw [← sbHigh_eq_ite, sbHigh]
  simp only [sbEncode, State.memRead, List.flatMap_map, hpair, Nat.zero_add]

/-- Settles O33: both capacity checks pass, and the output is the encoder's. -/
theorem sbencCompletes : Obligations.SbencCompletes := by
  intro s hwf hfit
  have ⟨_, hmax⟩ := of_decide_eq_true hwf
  have hout := sbencOutput_of_fits hfit
  have hlen : (sbEncode (s.memRead .ibuf 0 s.ilen.toNat)).length < 2 ^ 16 := by
    rw [length_sbEncode, length_memRead]
    omega
  rw [← sbEncode_memRead]
  exact exists_completesWith hout hlen

/-! ### SBDEC (R111, R116, R117) -/

theorem bytePairs_eq_map (ys : List Byte) :
    bytePairs ys = (List.range (ys.length / 2)).map fun j => (ys.getD (2 * j) 0, ys.getD (2 * j + 1) 0) := by
  induction ys using bytePairs.induct with
  | case1 lo hi rest ih =>
    have hlen : (lo :: hi :: rest).length / 2 = rest.length / 2 + 1 := by simp; omega
    rw [bytePairs, ih, hlen, List.range_succ_eq_map, List.map_cons, List.map_map]
    rfl
  | case2 ys hshort =>
    match ys with
    | [] => rfl
    | [_] => simp [bytePairs]
    | lo :: hi :: rest => exact (hshort lo hi rest rfl).elim

theorem sbJoin_eq_ite (lo hi : Byte) : sbJoin lo hi = lo ||| (if hi.getLsbD 0 then 0x80#8 else 0#8) := by
  rw [sbJoin, BitVec.and_one_eq_setWidth_ofBool_getLsbD]
  cases hi.getLsbD 0 <;> rfl

/-- The decoder accepts an even-length list; with HICHK only if its high elements are 0 or 1. -/
theorem sbDecode_of_accepted {ys : List Byte} {hichk : Bool} (heven : ys.length % 2 = 0)
    (hhigh : hichk = true → ∀ q ∈ bytePairs ys, q.2.toNat ≤ 1) :
    sbDecode ys hichk = .ok ((bytePairs ys).map fun q => sbJoin q.1 q.2) := by
  cases hichk with
  | true => exact sbDecode_of_high_le_one true heven (hhigh rfl)
  | false =>
    rw [sbDecode, if_neg (by omega), Bool.false_and, if_neg Bool.false_ne_true]
    rfl

theorem bytePairs_memRead (s : State) (n : Nat) :
    bytePairs (s.memRead .ibuf 0 n) =
      (List.range (n / 2)).map fun j => (s.byteAt .ibuf (2 * j), s.byteAt .ibuf (2 * j + 1)) := by
  rw [bytePairs_eq_map, length_memRead]
  refine List.map_congr_left fun j hj => ?_
  have hread : ∀ k, k < n → (s.memRead .ibuf 0 n).getD k 0 = s.byteAt .ibuf k := fun k hk => by
    rw [List.getD_eq_getElem _ _ (by rwa [length_memRead]), getElem_memRead, Nat.zero_add]
  rw [List.mem_range] at hj
  rw [hread (2 * j) (by omega), hread (2 * j + 1) (by omega)]

/-- Settles O35: the checks pass, and each pair is joined (`sbJoin_eq_ite`). -/
theorem sbdecCompletes : Obligations.SbdecCompletes := by
  intro s hcap heven hhichk
  have hlen := s.ilen.isLt
  have hhigh : s.hichk = true → ∀ q ∈ bytePairs (s.memRead .ibuf 0 s.ilen.toNat), q.2.toNat ≤ 1 := by
    intro h
    rw [bytePairs_memRead, List.forall_mem_map]
    exact fun j hj => hhichk h j (by rw [List.mem_range] at hj; omega)
  have hdecode := sbDecode_of_accepted (by rwa [length_memRead]) hhigh
  rw [bytePairs_memRead, List.map_map] at hdecode
  simp only [Function.comp_def, sbJoin_eq_ite] at hdecode
  refine exists_completesWith (i := .sbdec) ?_ (by simp; omega)
  rw [commandOutput, sbdecOutput, if_neg (by omega), hdecode]

/-! ### CKSUM (R130, R135) -/

theorem checksum_memRead_zeroExtend (s : State) (n : Nat) :
    (checksum s.addr (s.memRead .ibuf 0 n)).zeroExtend 64 =
      BitVec.ofNat 64 ((s.addr.toNat + ((List.range n).map fun j => (s.byteAt .ibuf j).toNat).sum) % 256) := by
  apply BitVec.eq_of_toNat_eq
  rw [BitVec.toNat_setWidth_of_le (by decide), toNat_checksum, byteSum_memRead_zero, BitVec.toNat_ofNat]
  omega

/-- Settles O40: the capacity check passes, and the checksum is the integer sum mod 256. -/
theorem cksumCompletes : Obligations.CksumCompletes := by
  intro s hcap
  refine exists_completesWith (i := .cksum) ?_ (by simp)
  rw [commandOutput, cksumOutput, if_neg (by omega), checksum_memRead_zeroExtend]

/-! ### BUILD (R140, R142) -/

/-- The bytes of a valid slot, read off the descriptor's bits (R75). -/
theorem fieldRegisterBytes_of_fieldOf {slot : FieldSlot} {f : FieldForm} (h : fieldOf slot.desc = some f) :
    fieldRegisterBytes f slot.val = slotBytes slot := by
  obtain ⟨-, hnone⟩ | ⟨-, hbit, w, hbytes, hint⟩ | ⟨-, hbit, hspd⟩ := fieldOf_cases slot.desc
  · rw [hnone] at h
    cases h
  · obtain rfl := Option.some.inj (hint.symm.trans h)
    rw [slotBytes, hbit, if_neg Bool.false_ne_true, fieldRegisterBytes, hbytes, fdOrder]
    cases slot.desc.getLsbD 3 <;> rfl
  · obtain rfl := Option.some.inj (hspd.symm.trans h)
    rw [slotBytes, if_pos hbit, fieldRegisterBytes]

/-- The fields of valid slots, in range where that is checked, are the slots' bytes in order. -/
theorem fieldsBytes_eq_ok {slots : List FieldSlot} {fs : List PackedField} {strict : Bool}
    (hfs : packedFields slots = some fs) (hin : strict = true → ∀ slot ∈ slots, SlotInRange slot) :
    fieldsBytes strict fs = .ok (slots.flatMap slotBytes) := by
  induction slots generalizing fs with
  | nil =>
    obtain rfl := Option.some.inj hfs
    rfl
  | cons slot rest ih =>
    obtain ⟨f, fs', hf, hfs', rfl⟩ := packedFields_cons_eq_some hfs
    have hadmits : strict = true → FieldAdmits f slot.val.toInt := fun hs =>
      (slot_of_fieldOf hf).2.2 (hin hs slot (List.mem_cons_self ..))
    have hrest := ih hfs' fun hs x hx => hin hs x (List.mem_cons_of_mem _ hx)
    simp only [fieldsBytes, fieldBytes_eq_ok hadmits, hrest, fieldRegisterBytes_of_fieldOf hf, List.flatMap_cons]

theorem exists_packedFields {slots : List FieldSlot} (h : ∀ slot ∈ slots, fdOk slot.desc = true) :
    ∃ fs, packedFields slots = some fs := by
  rw [← Option.ne_none_iff_exists', Ne, packedFields_eq_none_iff]
  rintro ⟨slot, hmem, hbad⟩
  rw [h slot hmem] at hbad
  cases hbad

theorem checksum_eq_ofNat (seed : Byte) (bs : List Byte) :
    checksum seed bs = BitVec.ofNat 8 (seed.toNat + byteSum bs) :=
  BitVec.eq_of_toNat_eq (toNat_checksum seed bs)

/-- Settles O41: the checks pass in their order, and the body is the opcode and the slots' bytes. -/
theorem buildCompletes : Obligations.BuildCompletes := by
  intro s hwf hnf hvalid hfits hin body c
  have ⟨_, hmax⟩ := of_decide_eq_true hwf
  obtain ⟨fs, hfs⟩ := exists_packedFields hvalid
  have hlen : ¬ s.params.bufBytes < s.frameLen fs := by rwa [← frameTooLong_iff hfs]
  have hc : checksum s.addr body = c := checksum_eq_ofNat ..
  have hout : buildOutput s = .ok ⟨s.frameOf body, c.zeroExtend 64⟩ := by
    rw [buildOutput, State.usedSlots, hfs]
    simp only [if_neg (Nat.not_lt.2 hnf), if_neg hlen, fieldsBytes_eq_ok hfs hin]
    rw [← hc]
  have hframe : s.frameOf body = (if s.ctrl.getLsbD 2 then [s.addr] else []) ++ body ++ [c] := by
    rw [State.frameOf, hc]
    rfl
  have hshort : (s.frameOf body).length ≤ s.params.bufBytes := buildOutput_fits hout
  rw [← hframe]
  exact exists_completesWith hout (by omega)

/-- Settles O43: a slot with this descriptor has the length its bits say (`slot_of_fieldOf`). -/
theorem fieldLengths : Obligations.FieldLengths := by
  refine fun fd V strict => ⟨(exists_fieldOf_iff fd).symm, fun f bs hf hbs => ?_⟩
  have hlen : f.len = slotLen ⟨fd, 0⟩ := (slot_of_fieldOf (slot := ⟨fd, 0⟩) hf).1
  obtain ⟨-, herr⟩ | ⟨bs', hok, hbs'⟩ := fieldBytes_cases f V strict
  · rw [herr] at hbs
    cases hbs
  · obtain rfl := Except.ok.inj (hok.symm.trans hbs)
    exact hbs'.trans hlen

/-! ### PARSE, and UNPACK after it (R150, R152, R153) -/

theorem checksum_eq_iff (seed b : Byte) (bs : List Byte) :
    checksum seed bs = b ↔ (seed.toNat + byteSum bs) % 256 = b.toNat :=
  not_iff_not.1 (checksum_ne_iff seed b bs)

theorem parseOutput_of_good_frame {s : State} (hcap : s.ilen.toNat ≤ s.params.bufBytes)
    (hlen : s.ilen.toNat = 2 + s.expw.toNat)
    (hsum : checksum s.addr (s.memRead .ibuf 0 (1 + s.expw.toNat)) = s.byteAt .ibuf (1 + s.expw.toNat)) :
    parseOutput s = .ok ⟨s.memRead .ibuf 1 s.expw.toNat, (s.byteAt .ibuf 0).zeroExtend 64⟩ := by
  have hlast : s.ilen.toNat - 1 = 1 + s.expw.toNat := by omega
  rw [parseOutput, if_neg (Nat.not_lt.2 hcap), if_neg (not_not.2 hlen), hlast, if_neg (not_not.2 hsum)]

/-- Settles O44: the checks pass in their order, and the output is the bytes between echo and checksum. -/
theorem parseCompletes : Obligations.ParseCompletes := by
  intro s hcap hlen hsum
  have hexpw := s.expw.isLt
  rw [← byteSum_memRead_zero, ← checksum_eq_iff] at hsum
  exact exists_completesWith (i := .parse) (parseOutput_of_good_frame hcap hlen hsum) (by simpa using hexpw)

/-- What a PARSE that raises nothing has checked, and its field bytes. -/
theorem parseOutput_ok {s : State} {o : Output} (h : parseOutput s = .ok o) :
    s.ilen.toNat ≤ s.params.bufBytes ∧ s.ilen.toNat = 2 + s.expw.toNat ∧ o.bytes = s.memRead .ibuf 1 s.expw.toNat := by
  unfold parseOutput at h
  split at h
  · cases h
  · split at h
    · cases h
    · split at h
      · cases h
      · rename_i hcap hlen _
        cases h
        exact ⟨Nat.le_of_not_lt hcap, not_not.1 hlen, rfl⟩

/-- A copy of IBUF[i..i+m) in OBUF reads as the original, part by part. -/
theorem memRead_obuf_of_copy {s : State} {o : Output} {i m : Nat} (hcopy : o.bytes = s.memRead .ibuf i m) {k n : Nat}
    (hk : k + n ≤ m) : (s.succeed o).memRead .obuf k n = s.memRead .ibuf (i + k) n := by
  refine memRead_eq_of_byteAt (length_memRead ..) fun j hj => ?_
  rw [length_memRead] at hj
  have hin : k + j < o.bytes.length := by rw [hcopy, length_memRead]; omega
  rw [byteAt_succeed_inside s o hin]
  simp only [hcopy, getElem_memRead, Nat.add_assoc]

/-- Settles O46: UNPACK reads the IBUF bytes that PARSE copied to OBUF. -/
theorem unpackAfterParse : Obligations.UnpackAfterParse := by
  intro s t w ord sgn k hexec herr hk
  obtain ⟨o, hout, rfl⟩ := exec_next_of_err_none hexec herr
  obtain ⟨hcap, hlen, hcopy⟩ := parseOutput_ok hout
  have hexpw := s.expw.isLt
  have hoff : ((s.succeed o).writeReg .offset (1 + k)).offset.toNat = 1 + k := Nat.mod_eq_of_lt (by omega)
  have hend : ((s.succeed o).writeReg .offset (1 + k)).offset.toNat + w.bytes ≤ s.ilen.toNat := by
    rw [hoff]
    omega
  have hunpack := unpackOutput_within (s := (s.succeed o).writeReg .offset (1 + k)) ord sgn hcap hend
  rw [hoff] at hunpack
  rw [exec_unpackInt, hunpack, memRead_obuf_of_copy hcopy hk]
  exact ⟨_, rfl, rfl, rfl⟩

end Sys2Proof.Machine
end
